-- ==== Sys2Proof/Word.lean ====
section
/-! DEFINITION. The two widths of spec/00_scope.md R6, the Word of the machine and its two arithmetic helpers (R9). The other
constants of R6 stand in Machine/Params.lean. -/

namespace Sys2Proof

/-- R6 `WORD_BITS`: width of a Word, of every memory cell and of every register (D17; log 10). -/
abbrev wordBits : Nat := 32

/-- R6 `OPCODE_BITS`: width of the opcode field, bits 3 to 0 of the instruction word (D17; log 10). -/
abbrev opcodeBits : Nat := 4

/-- R9, R31: "Word: 32-bit unsigned integer, the machine's only numeric type". Every memory cell and every register is one. -/
abbrev Word := BitVec wordBits

/-- R80: what the opcode field of an instruction word holds. -/
abbrev Opcode := BitVec opcodeBits

/-- R9: `add32(a, b) = (a + b) mod 2^32`. -/
abbrev add32 (a b : Word) : Word := a + b

/-- R9: `sub32(a, b) = (a - b) mod 2^32`, the mathematical modulus. -/
abbrev sub32 (a b : Word) : Word := a - b

end Sys2Proof
end

