-- ==== Sys2Proof/Syntax.lean ====
section
/-! DEFINITION. The names of things: mnemonics, instructions, assembler source lines, and what `load` takes
(spec/30_encoding.md R81 to R86, R100 to R113; spec/70_reset_and_hazards.md R210). -/

namespace Sys2Proof

/-- R2, R86: exactly these 15 instructions exist. In the order of R85's table. -/
inductive Mnemonic where
  | push | read | write | dup | drop | jmp | out | cmp | inc | dec | je | jg | add | jl | hlt
  deriving DecidableEq, Repr

/-- R85: the mnemonic list, in the order of the default numbering. -/
def Mnemonic.all : List Mnemonic :=
  [.push, .read, .write, .dup, .drop, .jmp, .out, .cmp, .inc, .dec, .je, .jg, .add, .jl, .hlt]

/-- A decoded instruction: one constructor per row of spec/opcode_table.json. R83: the only operand in the
instruction stream is PUSH's whole Word; R84: every other operand is implicit on the stack. -/
inductive Instr where
  | push (imm : Word)
  | read
  | write
  | dup
  | drop
  | jmp
  | out
  | cmp
  | inc
  | dec
  | je
  | jg
  | add
  | jl
  | hlt
  deriving DecidableEq, Repr

/-- The mnemonic of an instruction. -/
def Instr.mnemonic : Instr → Mnemonic
  | .push _ => .push
  | .read => .read
  | .write => .write
  | .dup => .dup
  | .drop => .drop
  | .jmp => .jmp
  | .out => .out
  | .cmp => .cmp
  | .inc => .inc
  | .dec => .dec
  | .je => .je
  | .jg => .jg
  | .add => .add
  | .jl => .jl
  | .hlt => .hlt

/-- A label or array name, or any token of a source line. Assembler-only: R35, "never materialized at runtime". -/
abbrev Name := List Char

/-- R210: an array literal as `load` takes it: a name (not used by load), a start address and its Words. -/
structure ArrayLit where
  name : Name
  start : Word
  values : List Word
  deriving DecidableEq, Repr

/-- R210: the two arguments of `load`, which are the two outputs of the assembler (R100). -/
structure LoadImage where
  instructions : List Word
  arrays : List ArrayLit
  deriving DecidableEq, Repr

/-- The operand token of a `PUSH` line (R109 to R111). -/
inductive AsmOperand where
  /-- R109: a decimal numeral. -/
  | literal (v : Word)
  /-- R110: a bare array name. -/
  | arrayName (name : Name)
  /-- R111: `name+k`. -/
  | arrayOffset (name : Name) (k : Nat)
  /-- R111: `name+k` where `k` is not an integer; fails with `UndefinedIncrease` in pass 2. -/
  | badIncrease (token : Name)
  deriving DecidableEq, Repr

/-- The four mnemonics that take a label (R102, R112). -/
inductive Jump where
  | jmp | je | jg | jl
  deriving DecidableEq, Repr

/-- The machine instruction of a jump line. -/
def Jump.instr : Jump → Instr
  | .jmp => .jmp
  | .je => .je
  | .jg => .jg
  | .jl => .jl

/-- The ten mnemonics that take no operand token (R102, R113). -/
inductive Plain where
  | read | write | dup | drop | out | cmp | inc | dec | add | hlt
  deriving DecidableEq, Repr

/-- The machine instruction of an operandless line. -/
def Plain.instr : Plain → Instr
  | .read => .read
  | .write => .write
  | .dup => .dup
  | .drop => .drop
  | .out => .out
  | .cmp => .cmp
  | .inc => .inc
  | .dec => .dec
  | .add => .add
  | .hlt => .hlt

/-- An instruction line of assembler source. -/
inductive AsmInstr where
  | push (operand : AsmOperand)
  | jump (j : Jump) (label : Name)
  | plain (p : Plain)
  deriving DecidableEq, Repr

/-- R101: the five classes of source line. -/
inductive SourceLine where
  | blank
  | comment
  | label (name : Name)
  | instr (i : AsmInstr)
  | array (name : Name) (values : List Word)
  deriving DecidableEq, Repr

end Sys2Proof
end

