-- ==== Sys2Proof/Config.lean ====
section
/-! DEFINITION. The four parameters the source does not fix (spec/00_scope.md R7). Their default values, and the
constants the source does fix (R6), stand in Machine/Params.lean. The machine has no source of non-determinism
(spec/10_state.md R41), so there is no free value here. -/

namespace Sys2Proof

/-- `ADDR_POLICY` (R7, R53, D3): what the memory array does with an address of 1024 or more. -/
inductive AddrPolicy where
  /-- The array uses the low 10 bits of the address. -/
  | wrap
  /-- Such an access has no meaning, and the step is refused. -/
  | refuse
  deriving DecidableEq, Repr

/-- `CMP_PAIRING` (R7, R160, D11): which comparison outcome sets which flag bit. -/
inductive CmpPairing where
  /-- Bit 1 when the top exceeds the second, bit 2 when the second exceeds the top. -/
  | topSetsBit1
  /-- The two exchanged. -/
  | secondSetsBit1
  deriving DecidableEq, Repr

/-- The parameters of R7. "A model takes each as an argument, with the default given there." -/
structure Config where
  /-- `OPC` (R85, D1): the 4-bit code of each mnemonic; injective (`Config.wf`). -/
  opc : Mnemonic → Opcode
  /-- `ADDR_POLICY` (R53, D3). -/
  addrPolicy : AddrPolicy
  /-- `CMP_PAIRING` (R160, D11). -/
  cmpPairing : CmpPairing
  /-- `ASM_JMP_EXTRA` (R107, D15): pass 1 counts `JMP` lines at their true length. -/
  asmJmpExtra : Bool

end Sys2Proof
end

