-- ==== Sys2Proof/Machine/Params.lean ====
section
/-! DEFINITION. The constants of spec/00_scope.md R6, each named once (D17, log 10: the source's literals were not audited;
the two widths stand in Word.lean), and the defaults of the four parameters of R7. They stand in this folder, not in Config.lean, so that a repair may change a
value that tests show wrong. -/

namespace Sys2Proof.Machine

/-- R6 `MEM_SIZE`: number of memory cells, addresses 0 to 1023. -/
def memSize : Nat := 1024

/-- R6 `STACK_BASE`: address of the first cell of the stack region. -/
def stackBase : Word := 72

/-- R6 `STACK_END`: address of the last cell of the stack region. -/
def stackEnd : Word := 87

/-- R6 `STACK_CELLS` = `STACK_END - STACK_BASE + 1`. -/
def stackCells : Nat := stackEnd.toNat - stackBase.toNat + 1

/-- R6 `ARRAY_BASE` = `STACK_END + 1`: where the assembler places the first array. -/
def arrayBase : Word := add32 stackEnd 1

/-- R6 `ARRAY_GAP`: cells the assembler leaves between two arrays. -/
def arrayGap : Nat := 3

/-- R6 `ENTRY`: value of `pc` after load. -/
def entry : Word := 0

/-- R6 `FLAG_RESET`: value of `flag` after load: running, both comparison bits 0. -/
def flagReset : Word := 0b001

/-- R36, R210: what a cell that nothing has written holds: load clears every cell to 0. -/
def clearedCell : Word := 0

/-- R85's default `OPC`. DESIGN CHOICE of the spec (D1; log 3), unsafe: the source gives no numeric code. -/
def defaultOpc : Mnemonic → Opcode
  | .push => 0
  | .read => 1
  | .write => 2
  | .dup => 3
  | .drop => 4
  | .jmp => 5
  | .out => 6
  | .cmp => 7
  | .inc => 8
  | .dec => 9
  | .je => 10
  | .jg => 11
  | .add => 12
  | .jl => 13
  | .hlt => 14

/-- The parameters `exec` and `step` run with: R7's defaults. DESIGN CHOICE of the spec (D1, D3, D11, D15; logs 3, 4, 5,
9), unsafe; `execAt` and `stepAt` take any other value. -/
def params : Config where
  opc := defaultOpc
  addrPolicy := .wrap
  cmpPairing := .topSetsBit1
  asmJmpExtra := true

end Sys2Proof.Machine
end

