-- ==== Sys2Proof/Machine/State.lean ====
section
/-! DEFINITION. The state of the machine (spec/10_state.md R20: exactly five items), the reasons a step stops, and the state
right after a load of nothing. -/

namespace Sys2Proof.Machine

/-- R32, R50: the memory array, as the cells that do not hold the cleared value: pairs of an address and its Word.
R52: the unit is the 32-bit Word; "a model ... must not introduce a byte-level memory" (log 1). -/
abbrev Memory := List (Nat × Word)

/-- The canonical form of a memory: addresses strictly rising and below 1024, and no entry equal to what an unlisted
address reads as. Equal memories are then equal lists. -/
abbrev Memory.wf (m : Memory) : Prop :=
  m.Pairwise (fun p q => p.1 < q.1) ∧ ∀ p ∈ m, p.1 < memSize ∧ p.2 ≠ clearedCell

/-- R20: "The complete state of the machine is exactly five items." -/
structure State where
  /-- The 1024 cells (R32). -/
  mem : Memory
  /-- Program counter: the address of the next instruction to fetch (R21). -/
  pc : Word
  /-- Stack pointer: a zero-based offset; `stackBase + sp` is the next free slot (R25). -/
  sp : Word
  /-- Flag register: bit 0 running, bit 1 top-greater, bit 2 second-greater (R27). -/
  flag : Word
  /-- Output log, oldest entry first (R34). -/
  out : List Word
  deriving DecidableEq, Repr

/-- R185: the two conditions a step can end in besides executing an instruction. -/
inductive Fault where
  /-- R88, R186: raised by the decode of `step` when bits 3:0 of the Word `w` fetched at `pc` are no instruction's code.
  No state changes. Safe: nothing can be claimed past it (D5). -/
  | invalidOpcode (pc w : Word)
  /-- R188: reported by the gate of `step` while the running bit is 0. No state changes; a status, not an error (log 6).
  Safe. -/
  | halted
  deriving DecidableEq, Repr

/-- Why the model gives a request no meaning. -/
inductive Refusal where
  /-- An arm of `exec` without a meaning yet. No arm answers it. Safe. -/
  | notModelled (mnemonic : String)
  /-- R53, D3: under `ADDR_POLICY = refuse` only, raised by an access at an address of 1024 or more. `exec` and `step` run
  with `wrap` and never answer it. Safe. -/
  | addressBeyondMemory (a : Word)
  /-- R212, D13: raised by `load` for more than 1024 instruction Words; never by a step. Safe. -/
  | streamTooLong (length : Nat)
  /-- R212, D13: raised by `load` for an array that runs past address 1023; never by a step. Safe. -/
  | arrayTooLong (start : Word) (length : Nat)
  deriving DecidableEq, Repr

/-- What a step answers. -/
abbrev StepOutcome := Host.Outcome State Fault Refusal

/-- R36, R213, R215: the state right after reset. The only reset is a load; this is `load` of an empty stream and no arrays,
which clears memory, `sp` and the log and sets `pc` and `flag` (log 2). -/
def State.reset : State where
  mem := []
  pc := entry
  sp := 0
  flag := flagReset
  out := []

end Sys2Proof.Machine
end

