-- ==== Sys2Proof/Machine/Memory.lean ====
section
/-! DEFINITION. Reading and writing one cell of the memory array (spec/20_memory.md R50, R57). -/

namespace Sys2Proof.Machine

/-- R57: a read returns the value most recently written to that cell; an unlisted cell is as load cleared it (R36). -/
def Memory.read (m : Memory) (a : Nat) : Word :=
  match m with
  | [] => clearedCell
  | p :: rest => if p.1 = a then p.2 else Memory.read rest a

/-- The memory with no entry at `a`: cell `a` is as load cleared it. -/
def Memory.erase (m : Memory) (a : Nat) : Memory := m.filter fun p => p.1 != a

/-- The entry `(a, v)` put before the first entry of a higher address. -/
def Memory.insert (m : Memory) (a : Nat) (v : Word) : Memory :=
  match m with
  | [] => [(a, v)]
  | p :: rest => if a < p.1 then (a, v) :: p :: rest else p :: Memory.insert rest a v

/-- R50: cell `a` takes the Word `v`. Writing the cleared value removes the entry, so the canonical form stays. -/
def Memory.write (m : Memory) (a : Nat) (v : Word) : Memory :=
  if v = clearedCell then m.erase a else (m.erase a).insert a v

end Sys2Proof.Machine
end

