-- ==== Sys2Proof/Machine/Ops.lean ====
section
/-! DEFINITION. The named operations every meaning is written with: the pseudocode primitives of spec/00_scope.md R11 to R13,
and the two ways a step stops. The machine has no trap entry and no return from one (spec/60_exceptions.md R193, R194):
nothing is saved, no mode changes, control goes nowhere. -/

namespace Sys2Proof.Machine

/-- R53: `EA(a) = a mod 1024 = a[9:0]`: the cell an address names under `ADDR_POLICY = wrap`. -/
def cellIndex (a : Word) : Nat := a.toNat % memSize

/-- R53, D3: the cell an address names, under either policy. -/
def ea (c : Config) (a : Word) : Except Refusal Nat :=
  match c.addrPolicy with
  | .wrap => .ok (cellIndex a)
  | .refuse => if a.toNat < memSize then .ok a.toNat else .error (.addressBeyondMemory a)

/-- The Word in cell `i`. -/
def State.cell (s : State) (i : Nat) : Word := s.mem.read i

/-- The state with `v` in cell `i`. -/
def State.setCell (s : State) (i : Nat) (v : Word) : State := { s with mem := s.mem.write i v }

/-- R11: `MemRead(a)`. -/
def State.memRead (s : State) (c : Config) (a : Word) : Except Refusal Word := do
  let i ← ea c a
  pure (s.cell i)

/-- R11: `MemWrite(a, v)`. -/
def State.memWrite (s : State) (c : Config) (a v : Word) : Except Refusal State := do
  let i ← ea c a
  pure (s.setCell i v)

/-- `pc <- t` (R13). -/
def State.setPc (s : State) (t : Word) : State := { s with pc := t }

/-- `pc <- add32(pc, 1)` (R22, R24). -/
def State.advance (s : State) : State := s.setPc (add32 s.pc 1)

/-- `sp <- v`. -/
def State.setSp (s : State) (v : Word) : State := { s with sp := v }

/-- `flag <- v`. -/
def State.setFlag (s : State) (v : Word) : State := { s with flag := v }

/-- R13: `Out(v)` is `out <- out ++ [v]`. -/
def State.emit (s : State) (v : Word) : State := { s with out := s.out ++ [v] }

/-- R25: `STACK_BASE + sp`, the address of the next free slot. -/
def State.freeAddr (s : State) : Word := add32 stackBase s.sp

/-- R12: `TopAddr()`, the address of the current top. -/
def State.topAddr (s : State) : Word := sub32 (add32 stackBase s.sp) 1

/-- R56: the address of the entry below the top. -/
def State.secondAddr (s : State) : Word := sub32 (add32 stackBase s.sp) 2

/-- R12: `Push(v)`: write the next free slot, then add 1 to `sp`. `sp` is not checked (R26). -/
def State.push (s : State) (c : Config) (v : Word) : Except Refusal State := do
  let s ← s.memWrite c s.freeAddr v
  pure (s.setSp (add32 s.sp 1))

/-- R12: `Pop()`: subtract 1 from `sp`, then read at `STACK_BASE + sp`. `sp` is not checked (R26). -/
def State.pop (s : State) (c : Config) : Except Refusal (Word × State) := do
  let s := s.setSp (sub32 s.sp 1)
  let v ← s.memRead c s.freeAddr
  pure (v, s)

/-- What a meaning answers: its next state, or the refusal of an access it makes (`ADDR_POLICY = refuse` only). -/
def answer (r : Except Refusal State) : StepOutcome :=
  match r with
  | .ok s => .next s
  | .error e => .refused e

/-- R13, R186: `raise InvalidOpcode(pc, w)`: the fetch address and the fetched Word are told to the host, and no state
changes. -/
def raiseInvalidOpcode {α : Type} (s : State) (w : Word) : Host.Outcome α Fault Refusal := .fault (.invalidOpcode s.pc w)

/-- R13, R188: `raise Halted`: no state changes. -/
def raiseHalted {α : Type} : Host.Outcome α Fault Refusal := .fault .halted

end Sys2Proof.Machine
end

