-- ==== Sys2Proof/Machine/Flags.lean ====
section
/-! DEFINITION. The flag register: its three bits, the value CMP gives it and the conditions the jumps test
(spec/10_state.md R27 to R30; spec/43_alu.md R160; spec/42_control_transfer.md R151 to R153). -/

namespace Sys2Proof.Machine

/-- R27: the running bit alone. -/
def runningBit : Word := 0b001

/-- R27, R29: flag bit 0, `isRunning()`. -/
def State.isRunning (s : State) : Bool := s.flag.getLsbD 0

/-- R27: flag bit 1. -/
def State.topGreater (s : State) : Bool := s.flag.getLsbD 1

/-- R27: flag bit 2. -/
def State.secondGreater (s : State) : Bool := s.flag.getLsbD 2

/-- R160: running, comparison bits clear. -/
def flagEqual : Word := 0b001

/-- R160: running, bit 1. -/
def flagBit1 : Word := 0b011

/-- R160: running, bit 2. -/
def flagBit2 : Word := 0b101

/-- R176: all bits 0. -/
def flagHalted : Word := 0

/-- R160: the flag after CMP with `b` on top and `a` below it, compared as unsigned numbers. DESIGN CHOICE of the spec for
the pairing (D11; log 5), unsafe at the default. -/
def compareFlag (p : CmpPairing) (b a : Word) : Word :=
  if a.toNat < b.toNat then
    match p with
    | .topSetsBit1 => flagBit1
    | .secondSetsBit1 => flagBit2
  else if b.toNat < a.toNat then
    match p with
    | .topSetsBit1 => flagBit2
    | .secondSetsBit1 => flagBit1
  else flagEqual

/-- R151: JE jumps if flag bits 1 and 2 are both 0. -/
def State.condEqual (s : State) : Bool := !s.topGreater && !s.secondGreater

/-- R152: JG jumps if flag bit 1 is 1. -/
def State.condGreater (s : State) : Bool := s.topGreater

/-- R153: JL jumps if flag bit 2 is 1. -/
def State.condLess (s : State) : Bool := s.secondGreater

/-- R28: the values `flag` can hold: 0, 1, 3 and 5. -/
abbrev legalFlag (f : Word) : Prop := f = flagHalted ∨ f = flagEqual ∨ f = flagBit1 ∨ f = flagBit2

end Sys2Proof.Machine
end

