-- ==== Sys2Proof/WellFormed.lean ====
section
/-! DEFINITION. The checks on data handed to the machine: an instruction, a configuration, an image for `load`. -/

namespace Sys2Proof

/-- Every term of `Instr` is an instruction: R83, any Word is a legal PUSH operand, and no other instruction holds an
operand, so the types already say all there is to check. -/
def Instr.wf (_ : Instr) : Bool := true

/-- R7, R85: `OPC` is an injective map from the 15 mnemonics to the 4-bit codes. -/
def Config.wf (c : Config) : Bool :=
  Mnemonic.all.all fun m => Mnemonic.all.all fun n => c.opc m != c.opc n || m == n

/-- R212: an array must end within the memory: `start + len(values) <= 1024`. -/
def ArrayLit.fits (a : ArrayLit) : Bool := decide (a.start.toNat + a.values.length ≤ Machine.memSize)

/-- R212: the instruction stream must fit the memory: `len(instructions) <= 1024`. -/
def LoadImage.streamFits (img : LoadImage) : Bool := decide (img.instructions.length ≤ Machine.memSize)

/-- R212: the preconditions of `load`. -/
def LoadImage.wf (img : LoadImage) : Bool := img.streamFits && img.arrays.all ArrayLit.fits

end Sys2Proof
end

