-- ==== Sys2Proof/Decode.lean ====
section
/-! DEFINITION. The decoder and the encoder (spec/30_encoding.md R80 to R91, R108). Total on any list of Words; what is no
instruction is rejected by name. -/

namespace Sys2Proof

/-- R8: `extractBits(word, start, end)`, the unsigned value of the inclusive bit range; works for `start = end`. -/
def extractBits (w : Word) (start stop : Nat) : Word :=
  BitVec.ofNat wordBits (w.toNat / 2 ^ start % 2 ^ (stop - start + 1))

/-- R80: `opcode = w[3:0]`; bits 31:4 are never looked at. -/
def opcodeOf (w : Word) : Opcode := BitVec.ofNat opcodeBits (extractBits w 0 (opcodeBits - 1)).toNat

/-- R85, R87: the inverse of `OPC`: the mnemonic whose code is `w[3:0]`, if there is one. -/
def decodeOpcode (c : Config) (w : Word) : Option Mnemonic :=
  Mnemonic.all.find? fun m => c.opc m == opcodeOf w

/-- R82: an instruction is 1 cell long, except PUSH, which is 2 cells long. -/
def Mnemonic.cells : Mnemonic → Nat
  | .push => 2
  | .read | .write | .dup | .drop | .jmp | .out | .cmp | .inc | .dec | .je | .jg | .add | .jl | .hlt => 1

/-- R81: the instruction of a mnemonic; only format P (PUSH) uses the operand cell. -/
def instrOf (m : Mnemonic) (operand : Word) : Instr :=
  match m with
  | .push => .push operand
  | .read => .read
  | .write => .write
  | .dup => .dup
  | .drop => .drop
  | .jmp => .jmp
  | .out => .out
  | .cmp => .cmp
  | .inc => .inc
  | .dec => .dec
  | .je => .je
  | .jg => .jg
  | .add => .add
  | .jl => .jl
  | .hlt => .hlt

/-- Why a list of Words decodes to no instruction. -/
inductive DecodeError where
  /-- R88: bits 3:0 of the Word are the code of no instruction. -/
  | invalidOpcode (w : Word)
  /-- The list ends before PUSH's operand cell. The machine never sees this: memory does not end (R53). -/
  | missingOperand (w : Word)
  /-- There is no Word to decode. -/
  | noWord
  deriving DecidableEq, Repr

/-- R80 to R83: the instruction at the head of a list of cells, and the cells after it. -/
def decode (c : Config) (ws : List Word) : Except DecodeError (Instr × List Word) :=
  match ws with
  | [] => .error .noWord
  | w :: rest =>
    match decodeOpcode c w with
    | none => .error (.invalidOpcode w)
    | some .push =>
      match rest with
      | [] => .error (.missingOperand w)
      | v :: rest' => .ok (.push v, rest')
    | some m => .ok (instrOf m 0, rest)

/-- R108: an emitted instruction word is `zext_32(OPC(mnemonic))`: bits 31:4 are 0. DESIGN CHOICE of the spec
(D12; log 23), unsafe only for what reads the words as data. -/
def encodeOpcode (c : Config) (m : Mnemonic) : Word := BitVec.setWidth wordBits (c.opc m)

/-- R81, R108, R109: the cells of an instruction. -/
def encode (c : Config) (i : Instr) : List Word :=
  match i with
  | .push v => [encodeOpcode c .push, v]
  | .read => [encodeOpcode c .read]
  | .write => [encodeOpcode c .write]
  | .dup => [encodeOpcode c .dup]
  | .drop => [encodeOpcode c .drop]
  | .jmp => [encodeOpcode c .jmp]
  | .out => [encodeOpcode c .out]
  | .cmp => [encodeOpcode c .cmp]
  | .inc => [encodeOpcode c .inc]
  | .dec => [encodeOpcode c .dec]
  | .je => [encodeOpcode c .je]
  | .jg => [encodeOpcode c .jg]
  | .add => [encodeOpcode c .add]
  | .jl => [encodeOpcode c .jl]
  | .hlt => [encodeOpcode c .hlt]

/-- The two cells that hold the low `nbits` bits of `w`, numbered as spec/opcode_table.json numbers them: bit 0 is the least
significant bit of the first cell, bit 32 that of the second; every bit from `nbits` up is 0. -/
def tableWords (nbits w : Nat) : Word × Word :=
  (BitVec.ofNat wordBits (w % 2 ^ nbits), BitVec.ofNat wordBits (w % 2 ^ nbits / 2 ^ wordBits))

/-- What the decoder reads from the instruction whose bits are `w`, under the default `OPC`. -/
def decodeTableWord (nbits w : Nat) : Option Instr :=
  match decode Machine.params [(tableWords nbits w).1, (tableWords nbits w).2] with
  | .ok (i, _) => some i
  | .error _ => none

/-- R91 with a bound on the number of instructions read. -/
def listingUpTo (c : Config) : Nat → List Word → Except DecodeError (List Instr)
  | _, [] => .ok []
  | 0, _ :: _ => .ok []
  | n + 1, w :: ws =>
    match decode c (w :: ws) with
    | .error e => .error e
    | .ok (i, rest) =>
      match listingUpTo c n rest with
      | .error e => .error e
      | .ok is => .ok (i :: is)

/-- R91: reading a stream of Words back into instructions, walking from index 0; after a PUSH the operand Word is taken as
it stands and skipped. An instruction takes at least one Word, so the stream's length bounds the walk. -/
def listing (c : Config) (ws : List Word) : Except DecodeError (List Instr) := listingUpTo c ws.length ws

end Sys2Proof
end

