-- ==== Sys2Proof/Machine/Operands.lean ====
section
/-! DEFINITION. Where operands come from: the cells of the instruction at `pc` (spec/30_encoding.md R83) and the top entries
of the stack (R84; order of accesses spec/20_memory.md R56). -/

namespace Sys2Proof.Machine

/-- R81 to R83: the cells of the instruction at `pc`: the instruction word and, for PUSH only, the operand cell at
`add32(pc, 1)`. -/
def State.fetchCells (s : State) (c : Config) : Except Refusal (Word × List Word) := do
  let w ← s.memRead c s.pc
  match decodeOpcode c w with
  | some .push => do
    let v ← s.memRead c (add32 s.pc 1)
    pure (w, [v])
  | _ => pure (w, [])

/-- R84: two implicit operands: the top `b`, popped first, and the entry below it `a`, popped second. -/
def State.popTwo (s : State) (c : Config) : Except Refusal ((Word × Word) × State) := do
  let (b, s) ← s.pop c
  let (a, s) ← s.pop c
  pure ((b, a), s)

/-- R161, R162: the top replaced in place by `f` of it; `sp` is not changed. -/
def State.updateTop (s : State) (c : Config) (f : Word → Word) : Except Refusal State := do
  let x ← s.memRead c s.topAddr
  s.memWrite c s.topAddr (f x)

/-- R56: the addresses an instruction reads as data, in the order it reads them, after the fetch of its own cells. -/
def State.readAddrs (s : State) (i : Instr) : List Word :=
  match i with
  | .push _ | .drop | .hlt => []
  | .read => [s.topAddr, s.cell (cellIndex s.topAddr)]
  | .write | .cmp | .add => [s.topAddr, s.secondAddr]
  | .dup | .jmp | .je | .jg | .jl | .out | .inc | .dec => [s.topAddr]

/-- R56: the one address an instruction writes at, if it writes, after all its reads. -/
def State.writeAddr (s : State) (i : Instr) : Option Word :=
  match i with
  | .push _ | .dup => some s.freeAddr
  | .read | .inc | .dec => some s.topAddr
  | .write => some (s.cell (cellIndex s.topAddr))
  | .add => some s.secondAddr
  | .drop | .jmp | .je | .jg | .jl | .out | .cmp | .hlt => none

/-- R56: the cells an instruction reads as data. -/
def State.dataReads (s : State) (i : Instr) : List Nat := (s.readAddrs i).map cellIndex

/-- R56: the one cell an instruction writes, if it writes one. -/
def State.dataWrite (s : State) (i : Instr) : Option Nat := (s.writeAddr i).map cellIndex

end Sys2Proof.Machine
end

