-- ==== Sys2Proof/Machine/AluInstr.lean ====
section
/-! DEFINITION. CMP, INC, DEC and ADD (spec/43_alu.md R160 to R163). -/

namespace Sys2Proof.Machine

/-- R160: pop `b`, pop `a`, record their unsigned comparison in `flag`. -/
def execCmpAt (c : Config) (s : State) : StepOutcome := answer do
  let ((b, a), s) ← s.popTwo c
  let s := s.setFlag (compareFlag c.cmpPairing b a)
  pure s.advance

/-- R161: add 1 to the top in place. -/
def execIncAt (c : Config) (s : State) : StepOutcome := answer do
  let s ← s.updateTop c fun x => add32 x 1
  pure s.advance

/-- R162: subtract 1 from the top in place. -/
def execDecAt (c : Config) (s : State) : StepOutcome := answer do
  let s ← s.updateTop c fun x => sub32 x 1
  pure s.advance

/-- R163: pop `b`, pop `a`, push their wrapped sum. -/
def execAddAt (c : Config) (s : State) : StepOutcome := answer do
  let ((b, a), s) ← s.popTwo c
  let s ← s.push c (add32 a b)
  pure s.advance

/-- R160, at the defaults. -/
def execCmp (s : State) : StepOutcome := execCmpAt params s

/-- R161, at the defaults. -/
def execInc (s : State) : StepOutcome := execIncAt params s

/-- R162, at the defaults. -/
def execDec (s : State) : StepOutcome := execDecAt params s

/-- R163, at the defaults. -/
def execAdd (s : State) : StepOutcome := execAddAt params s

end Sys2Proof.Machine
end

