-- ==== Sys2Proof/Machine/ControlInstr.lean ====
section
/-! DEFINITION. JMP, JE, JG and JL (spec/42_control_transfer.md R150 to R153). -/

namespace Sys2Proof.Machine

/-- R150 to R153: pop the target, taken or not; go there if `taken`, else advance. -/
def State.jumpIf (s : State) (c : Config) (taken : Bool) : Except Refusal State := do
  let (t, s) ← s.pop c
  pure (if taken then s.setPc t else s.advance)

/-- R150: unconditional. -/
def execJmpAt (c : Config) (s : State) : StepOutcome := answer (s.jumpIf c true)

/-- R151: flag bits 1 and 2 both 0. -/
def execJeAt (c : Config) (s : State) : StepOutcome := answer (s.jumpIf c s.condEqual)

/-- R152: flag bit 1. -/
def execJgAt (c : Config) (s : State) : StepOutcome := answer (s.jumpIf c s.condGreater)

/-- R153: flag bit 2. -/
def execJlAt (c : Config) (s : State) : StepOutcome := answer (s.jumpIf c s.condLess)

/-- R150, at the defaults. -/
def execJmp (s : State) : StepOutcome := execJmpAt params s

/-- R151, at the defaults. -/
def execJe (s : State) : StepOutcome := execJeAt params s

/-- R152, at the defaults. -/
def execJg (s : State) : StepOutcome := execJgAt params s

/-- R153, at the defaults. -/
def execJl (s : State) : StepOutcome := execJlAt params s

end Sys2Proof.Machine
end

