-- ==== Sys2Proof/Machine/MemoryInstr.lean ====
section
/-! DEFINITION. READ and WRITE (spec/41_memory_access.md R140, R141). -/

namespace Sys2Proof.Machine

/-- R140: pop the address, read the Word there, push it. -/
def execReadAt (c : Config) (s : State) : StepOutcome := answer do
  let (a, s) ← s.pop c
  let v ← s.memRead c a
  let s ← s.push c v
  pure s.advance

/-- R141: pop the address, pop the value, store. -/
def execWriteAt (c : Config) (s : State) : StepOutcome := answer do
  let ((a, v), s) ← s.popTwo c
  let s ← s.memWrite c a v
  pure s.advance

/-- R140, at the defaults. -/
def execRead (s : State) : StepOutcome := execReadAt params s

/-- R141, at the defaults. -/
def execWrite (s : State) : StepOutcome := execWriteAt params s

end Sys2Proof.Machine
end

