-- ==== Sys2Proof/Machine/StackInstr.lean ====
section
/-! DEFINITION. PUSH, DUP and DROP (spec/40_stack.md R130 to R132). Each meaning is written for any configuration
(`execPushAt`) and given at the defaults (`execPush`). -/

namespace Sys2Proof.Machine

/-- R130: `pc` to the operand cell, push the operand, `pc` past it. -/
def execPushAt (c : Config) (imm : Word) (s : State) : StepOutcome := answer do
  let s := s.advance
  let s ← s.push c imm
  pure s.advance

/-- R131: push a copy of the top. -/
def execDupAt (c : Config) (s : State) : StepOutcome := answer do
  let v ← s.memRead c s.topAddr
  let s ← s.push c v
  pure s.advance

/-- R132: subtract 1 from `sp`; no memory access. -/
def execDropAt (_ : Config) (s : State) : StepOutcome := answer do
  let s := s.setSp (sub32 s.sp 1)
  pure s.advance

/-- R130, at the defaults. -/
def execPush (imm : Word) (s : State) : StepOutcome := execPushAt params imm s

/-- R131, at the defaults. -/
def execDup (s : State) : StepOutcome := execDupAt params s

/-- R132, at the defaults. -/
def execDrop (s : State) : StepOutcome := execDropAt params s

end Sys2Proof.Machine
end

