-- ==== Sys2Proof/Machine/SystemInstr.lean ====
section
/-! DEFINITION. OUT and HLT (spec/44_system.md R175, R176). -/

namespace Sys2Proof.Machine

/-- R175: pop the top and append it to the output log. -/
def execOutAt (c : Config) (s : State) : StepOutcome := answer do
  let (v, s) ← s.pop c
  let s := s.emit v
  pure s.advance

/-- R176: clear the entire flag register; `pc` stays. -/
def execHltAt (_ : Config) (s : State) : StepOutcome := answer (.ok (s.setFlag flagHalted))

/-- R175, at the defaults. -/
def execOut (s : State) : StepOutcome := execOutAt params s

/-- R176, at the defaults. -/
def execHlt (s : State) : StepOutcome := execHltAt params s

end Sys2Proof.Machine
end

