-- ==== Sys2Proof/Machine/Dispatch.lean ====
section
/-! DEFINITION. One arm per instruction, each a direct call of its meaning. -/

namespace Sys2Proof.Machine

def exec (i : Instr) (s : State) : Host.Outcome State Fault Refusal :=
  match i with
  | .push imm => Sys2Proof.Machine.execPush imm s
  | .read => Sys2Proof.Machine.execRead s
  | .write => Sys2Proof.Machine.execWrite s
  | .dup => Sys2Proof.Machine.execDup s
  | .drop => Sys2Proof.Machine.execDrop s
  | .jmp => Sys2Proof.Machine.execJmp s
  | .out => Sys2Proof.Machine.execOut s
  | .cmp => Sys2Proof.Machine.execCmp s
  | .inc => Sys2Proof.Machine.execInc s
  | .dec => Sys2Proof.Machine.execDec s
  | .je => Sys2Proof.Machine.execJe s
  | .jg => Sys2Proof.Machine.execJg s
  | .add => Sys2Proof.Machine.execAdd s
  | .jl => Sys2Proof.Machine.execJl s
  | .hlt => Sys2Proof.Machine.execHlt s

end Sys2Proof.Machine
end

