-- ==== Sys2Proof/Machine/Fetch.lean ====
section
/-! DEFINITION. The step cycle of spec/30_encoding.md R87 (gate, fetch, decode, execute), and the machine for any
configuration. -/

namespace Sys2Proof.Machine

/-- R66, R87: fetch the instruction at `pc` and decode it; `InvalidOpcode` where bits 3:0 are no instruction's code. -/
def fetch (c : Config) (s : State) : Host.Outcome Instr Fault Refusal :=
  match s.fetchCells c with
  | .error r => .refused r
  | .ok (w, operands) =>
    match decode c (w :: operands) with
    | .ok (i, _) => .next i
    | .error _ => raiseInvalidOpcode s w

/-- R87, R190: the gate is tested before the fetch; then fetch, decode, and execute exactly one instruction by `run`. -/
def cycle (c : Config) (run : Instr → State → StepOutcome) (s : State) : StepOutcome :=
  if s.isRunning then
    match fetch c s with
    | .next i => run i s
    | .fault f => .fault f
    | .refused r => .refused r
  else raiseHalted

/-- The meaning of each instruction for any configuration (R7: "a model takes each as an argument"). -/
def execAt (c : Config) (i : Instr) (s : State) : StepOutcome :=
  match i with
  | .push imm => execPushAt c imm s
  | .read => execReadAt c s
  | .write => execWriteAt c s
  | .dup => execDupAt c s
  | .drop => execDropAt c s
  | .jmp => execJmpAt c s
  | .out => execOutAt c s
  | .cmp => execCmpAt c s
  | .inc => execIncAt c s
  | .dec => execDecAt c s
  | .je => execJeAt c s
  | .jg => execJgAt c s
  | .add => execAddAt c s
  | .jl => execJlAt c s
  | .hlt => execHltAt c s

/-- R87: `step()` for any configuration. -/
def stepAt (c : Config) (s : State) : StepOutcome := cycle c (execAt c) s

/-- `s` with the two cells `ws` at `pc` and after it, and the running bit set, so that the next fetch reads them. -/
def State.placeInstruction (s : State) (ws : Word × Word) : State :=
  ((s.setCell (cellIndex s.pc) ws.1).setCell (cellIndex (add32 s.pc 1)) ws.2).setFlag (s.flag ||| runningBit)

end Sys2Proof.Machine
end

