-- ==== Sys2Proof/Machine/Step.lean ====
section
/-! DEFINITION. `step()` at the default configuration (spec/30_encoding.md R87), and the host's way to place one
instruction. -/

namespace Sys2Proof.Machine

/-- R87: one step of the machine: the step cycle of Fetch.lean with `exec`. -/
def step (s : State) : Host.Outcome State Fault Refusal := cycle params exec s

/-- `s` with the instruction whose bits are `w` where the next step fetches (log 2). -/
def State.withFetchWord (s : State) (nbits w : Nat) : State := s.placeInstruction (tableWords nbits w)

end Sys2Proof.Machine
end

