-- ==== Sys2Proof/Machine/Assembler.lean ====
section
/-! DEFINITION. The assembler (spec/30_encoding.md R100 to R118): software, in scope because it alone fixes how an instruction
stream and its arrays are laid out (R4). Source is a list of lines; the result is what `load` takes, or a named failure. -/

namespace Sys2Proof.Machine

/-- R117, D16: why a text the source gives no meaning is rejected. -/
inductive RejectReason where
  /-- (a), (b): the line fits none of the five classes. -/
  | unclassified
  /-- (b): a missing or an extra operand token. -/
  | operandCount
  /-- (c): `PUSH name` or `PUSH name+k` of an array never declared. -/
  | undeclaredArray
  /-- (d): a numeral that is not decimal, negative or above 4294967295. -/
  | numeral
  /-- (d): a negative `k`. -/
  | negativeOffset
  /-- (e): a label or array name declared twice, or a label spelled as a mnemonic or an array. -/
  | duplicateName
  /-- (f): a mnemonic in lower or mixed case. -/
  | letterCase
  /-- The sum of an array's start and `k`, an array's start (log 13) or a label's address (log 21) is no Word. -/
  | addressRange
  deriving DecidableEq, Repr

/-- R114: the two named failures, and rejection. On any of them nothing is emitted and nothing is loaded. -/
inductive AsmError where
  /-- R112: a jump names a label pass 1 did not record. -/
  | undefinedLabel (label : Name)
  /-- R111: `k` is not an integer. -/
  | undefinedIncrease (token : Name)
  /-- R117: outside the described grammar. -/
  | rejected (reason : RejectReason)
  deriving DecidableEq, Repr

/-! ### Tokens and numerals -/

/-- R101: "Tokens are separated by white space" (log 11). -/
def isSpace (ch : Char) : Bool := ch == ' ' || ch == '\t' || ch == '\r' || ch == '\n'

/-- The pieces of a text between the characters that satisfy `p`, empty pieces among them. -/
def splitBy (p : Char → Bool) (l : List Char) : List (List Char) :=
  match l with
  | [] => [[]]
  | ch :: rest =>
    if p ch then [] :: splitBy p rest
    else
      match splitBy p rest with
      | [] => [[ch]]
      | t :: ts => (ch :: t) :: ts

/-- R101: the tokens of a line. -/
def tokens (line : List Char) : List Name := (splitBy isSpace line).filter fun t => !t.isEmpty

/-- The value of a decimal digit. -/
def digitValue (ch : Char) : Option Nat :=
  if 48 ≤ ch.toNat ∧ ch.toNat ≤ 57 then some (ch.toNat - 48) else none

/-- The value of a run of decimal digits read after the value `acc`. -/
def digitsValue (acc : Nat) (l : List Char) : Option Nat :=
  match l with
  | [] => some acc
  | ch :: rest =>
    match digitValue ch with
    | none => none
    | some d => digitsValue (10 * acc + d) rest

/-- R109: a decimal numeral: one or more decimal digits. -/
def parseNumeral (t : Name) : Option Nat := if t.isEmpty then none else digitsValue 0 t

/-- R109, R117 (d): a decimal numeral from 0 to 4294967295, as a Word. -/
def parseWord (t : Name) : Option Word :=
  match parseNumeral t with
  | some n => if n < 2 ^ wordBits then some (BitVec.ofNat wordBits n) else none
  | none => none

/-- R106: every item of an array's list, each a numeral. -/
def parseWords (ts : List Name) : Option (List Word) :=
  match ts with
  | [] => some []
  | t :: rest =>
    match parseWord t, parseWords rest with
    | some v, some vs => some (v :: vs)
    | _, _ => none

/-! ### Lines -/

/-- R102: the spelling of each mnemonic. -/
def mnemonicName (m : Mnemonic) : Name :=
  match m with
  | .push => ['P', 'U', 'S', 'H']
  | .read => ['R', 'E', 'A', 'D']
  | .write => ['W', 'R', 'I', 'T', 'E']
  | .dup => ['D', 'U', 'P']
  | .drop => ['D', 'R', 'O', 'P']
  | .jmp => ['J', 'M', 'P']
  | .out => ['O', 'U', 'T']
  | .cmp => ['C', 'M', 'P']
  | .inc => ['I', 'N', 'C']
  | .dec => ['D', 'E', 'C']
  | .je => ['J', 'E']
  | .jg => ['J', 'G']
  | .add => ['A', 'D', 'D']
  | .jl => ['J', 'L']
  | .hlt => ['H', 'L', 'T']

/-- R101: the mnemonic a token is, if it is one. -/
def mnemonicOf (t : Name) : Option Mnemonic := Mnemonic.all.find? fun m => mnemonicName m == t

/-- R117 (g): a PUSH operand token is tested as a decimal numeral first, then for a `+`, then taken as a bare name. DESIGN
CHOICE, unsafe (log 22): a token such as `-1` or `0x10` is no decimal numeral, so it is a bare name, and rejected (R117 c, d)
only where no array has that name. DESIGN CHOICE, safe: what counts as a negative `k` and as no integer (log 13). -/
def parseOperand (t : Name) : Except AsmError AsmOperand :=
  match parseNumeral t with
  | some n => if n < 2 ^ wordBits then .ok (.literal (BitVec.ofNat wordBits n)) else .error (.rejected .numeral)
  | none =>
    match splitBy (· == '+') t with
    | [_] | [] => .ok (.arrayName t)
    | name :: [k] =>
      match parseNumeral k with
      | some n => .ok (.arrayOffset name n)
      | none =>
        if k.head? == some '-' && (parseNumeral k.tail).isSome then .error (.rejected .negativeOffset)
        else .ok (.badIncrease t)
    | _ :: _ :: _ :: _ => .ok (.badIncrease t)

/-- R102: `PUSH`, `JMP`, `JE`, `JG`, `JL` take one operand token; others take none. -/
def parseInstr (m : Mnemonic) (operands : List Name) : Except AsmError AsmInstr :=
  match m, operands with
  | .push, [t] =>
    match parseOperand t with
    | .ok o => .ok (.push o)
    | .error e => .error e
  | .jmp, [l] => .ok (.jump .jmp l)
  | .je, [l] => .ok (.jump .je l)
  | .jg, [l] => .ok (.jump .jg l)
  | .jl, [l] => .ok (.jump .jl l)
  | .read, [] => .ok (.plain .read)
  | .write, [] => .ok (.plain .write)
  | .dup, [] => .ok (.plain .dup)
  | .drop, [] => .ok (.plain .drop)
  | .out, [] => .ok (.plain .out)
  | .cmp, [] => .ok (.plain .cmp)
  | .inc, [] => .ok (.plain .inc)
  | .dec, [] => .ok (.plain .dec)
  | .add, [] => .ok (.plain .add)
  | .hlt, [] => .ok (.plain .hlt)
  | _, _ => .error (.rejected .operandCount)

/-- R105: the name of a label line is the token without its final `:`; R117 (e) rejects one spelled as a mnemonic. -/
def parseLabel (t : Name) : Except AsmError SourceLine :=
  if t.dropLast.isEmpty then .error (.rejected .unclassified)
  else if (mnemonicOf t.dropLast).isSome then .error (.rejected .duplicateName)
  else .ok (.label t.dropLast)

/-- R106, R117 (a), (b), (d), (f): a first token that is no mnemonic, then one token that is a comma-separated list of two or
more numerals. -/
def parseArray (name : Name) (rest : List Name) : Except AsmError SourceLine :=
  match rest with
  | [list] =>
    if (splitBy (· == ',') list).length < 2 then .error (.rejected .unclassified)
    else if (mnemonicOf (name.map Char.toUpper)).isSome then .error (.rejected .letterCase)
    else
      match parseWords (splitBy (· == ',') list) with
      | some vs => .ok (.array name vs)
      | none => .error (.rejected .numeral)
  | _ => .error (.rejected .unclassified)

/-- R101: the class of a line, the classes tested in the table's order. A comment begins with `//` at the line's first
character (log 11). -/
def parseLine (line : List Char) : Except AsmError SourceLine :=
  match tokens line with
  | [] => .ok .blank
  | t :: rest =>
    if line.take 2 == ['/', '/'] then .ok .comment
    else if rest.isEmpty && t.getLast? == some ':' then parseLabel t
    else
      match mnemonicOf t with
      | some m =>
        match parseInstr m rest with
        | .ok i => .ok (.instr i)
        | .error e => .error e
      | none => parseArray t rest

/-- R100: the lines both passes read. -/
def parseLines (ls : List (List Char)) : Except AsmError (List SourceLine) :=
  match ls with
  | [] => .ok []
  | l :: rest =>
    match parseLine l with
    | .error e => .error e
    | .ok x =>
      match parseLines rest with
      | .error e => .error e
      | .ok xs => .ok (x :: xs)

/-! ### Pass 1: addresses -/

/-- R106: a placed array: its name, its start address and its values. -/
structure PlacedArray where
  name : Name
  start : Nat
  values : List Word
  deriving DecidableEq, Repr

/-- R103: what pass 1 keeps: the instruction address counter `ia`, the array cursor `ac`, the labels and the arrays, both in
source order. -/
structure Symbols where
  ia : Nat
  ac : Nat
  labels : List (Name × Nat)
  arrays : List PlacedArray
  deriving DecidableEq, Repr

/-- R103: pass 1 starts with `ia = 0` and `ac = STACK_END + 1`. -/
def Symbols.initial : Symbols := { ia := 0, ac := arrayBase.toNat, labels := [], arrays := [] }

/-- The address pass 1 bound to a label. -/
def Symbols.labelAddr (st : Symbols) (l : Name) : Option Nat := (st.labels.find? fun p => p.1 == l).map (·.2)

/-- The start address pass 1 gave an array. -/
def Symbols.arrayStart (st : Symbols) (n : Name) : Option Nat := (st.arrays.find? fun a => a.name == n).map (·.start)

/-- The name is already a label's or an array's. -/
def Symbols.declares (st : Symbols) (n : Name) : Bool := (st.labelAddr n).isSome || (st.arrayStart n).isSome

/-- R104: how far an instruction line advances `ia`; R107: with `ASM_JMP_EXTRA = false` a `JMP` line counts 2. -/
def asmLength (c : Config) (i : AsmInstr) : Nat :=
  match i with
  | .push _ => 2
  | .jump .jmp _ => if c.asmJmpExtra then 3 else 2
  | .jump .je _ | .jump .jg _ | .jump .jl _ => 3
  | .plain _ => 1

/-- R104 to R106: what pass 1 does with one line; R117 (e): a name declared twice is rejected. -/
def passOneLine (c : Config) (st : Symbols) (line : SourceLine) : Except AsmError Symbols :=
  match line with
  | .blank | .comment => .ok st
  | .label n =>
    if st.declares n then .error (.rejected .duplicateName)
    else .ok { st with labels := st.labels ++ [(n, st.ia)] }
  | .instr i => .ok { st with ia := st.ia + asmLength c i }
  | .array n vs =>
    if st.declares n then .error (.rejected .duplicateName)
    else if st.ac < 2 ^ wordBits then
      .ok { st with ac := st.ac + vs.length + arrayGap, arrays := st.arrays ++ [⟨n, st.ac, vs⟩] }
    else .error (.rejected .addressRange)

/-- R103: pass 1 walks the lines in order. -/
def passOne (c : Config) (st : Symbols) (lines : List SourceLine) : Except AsmError Symbols :=
  match lines with
  | [] => .ok st
  | l :: rest =>
    match passOneLine c st l with
    | .error e => .error e
    | .ok st' => passOne c st' rest

/-! ### Pass 2: emission -/

/-- R109 to R111: the Word a PUSH operand stands for. A bare array name is always `STACK_END + 1`, whichever array. -/
def operandWord (st : Symbols) (o : AsmOperand) : Except AsmError Word :=
  match o with
  | .literal v => .ok v
  | .arrayName n => if (st.arrayStart n).isSome then .ok arrayBase else .error (.rejected .undeclaredArray)
  | .arrayOffset n k =>
    match st.arrayStart n with
    | none => .error (.rejected .undeclaredArray)
    | some start =>
      if start + k < 2 ^ wordBits then .ok (BitVec.ofNat wordBits (start + k)) else .error (.rejected .addressRange)
  | .badIncrease t => .error (.undefinedIncrease t)

/-- R112: the Word a label stands for: the address pass 1 bound to it. DESIGN CHOICE, safe (log 21): an address of 2^32 or
more is no Word, the spec does not say what is emitted for it, and it is rejected. -/
def labelWord (st : Symbols) (l : Name) : Except AsmError Word :=
  match st.labelAddr l with
  | some a => if a < 2 ^ wordBits then .ok (BitVec.ofNat wordBits a) else .error (.rejected .addressRange)
  | none => .error (.undefinedLabel l)

/-- R108 to R113: the machine instructions of an instruction line. A jump line is a PUSH of the label's address and the jump. -/
def lineInstrs (st : Symbols) (i : AsmInstr) : Except AsmError (List Instr) :=
  match i with
  | .push o =>
    match operandWord st o with
    | .ok v => .ok [.push v]
    | .error e => .error e
  | .jump j l =>
    match labelWord st l with
    | .ok v => .ok [.push v, j.instr]
    | .error e => .error e
  | .plain p => .ok [p.instr]

/-- R108: label, array, blank and comment lines emit nothing. -/
def passTwoLine (st : Symbols) (line : SourceLine) : Except AsmError (List Instr) :=
  match line with
  | .instr i => lineInstrs st i
  | .blank | .comment | .label _ | .array _ _ => .ok []

/-- R108: pass 2 walks the same lines, appending in line order. -/
def passTwo (st : Symbols) (lines : List SourceLine) : Except AsmError (List Instr) :=
  match lines with
  | [] => .ok []
  | l :: rest =>
    match passTwoLine st l with
    | .error e => .error e
    | .ok is =>
      match passTwo st rest with
      | .error e => .error e
      | .ok js => .ok (is ++ js)

/-- The Words of a list of instructions, in order. -/
def encodeAll (c : Config) (is : List Instr) : List Word :=
  match is with
  | [] => []
  | i :: rest => encode c i ++ encodeAll c rest

/-- R100: both passes over classified lines: the flat instruction stream and the arrays with their start addresses. -/
def assembleLines (c : Config) (lines : List SourceLine) : Except AsmError LoadImage :=
  match passOne c Symbols.initial lines with
  | .error e => .error e
  | .ok st =>
    match passTwo st lines with
    | .error e => .error e
    | .ok is =>
      .ok { instructions := encodeAll c is, arrays := st.arrays.map fun a => ⟨a.name, BitVec.ofNat wordBits a.start, a.values⟩ }

/-- R100, R114: the assembler on source text: a complete stream and array list, or one failure and nothing. -/
def assemble (c : Config) (source : List String) : Except AsmError LoadImage :=
  match parseLines (source.map String.toList) with
  | .error e => .error e
  | .ok lines => assembleLines c lines

end Sys2Proof.Machine
end

