-- ==== Sys2Proof/Machine/Load.lean ====
section
/-! DEFINITION. `load`, the machine's only reset (spec/70_reset_and_hazards.md R210 to R215). -/

namespace Sys2Proof.Machine

/-- R210: `MemWrite(add32(a, j), ws[j])` for each `j` in order. Inside the preconditions of R212 no address reaches 1024, so
both address policies agree. -/
def Memory.place (m : Memory) (a : Word) (ws : List Word) : Memory :=
  match ws with
  | [] => m
  | w :: rest => Memory.place (m.write (cellIndex a) w) (add32 a 1) rest

/-- R210, R211: every array, in the order given, so that a later one wins where two overlap. -/
def Memory.placeArrays (m : Memory) (arrays : List ArrayLit) : Memory :=
  match arrays with
  | [] => m
  | a :: rest => Memory.placeArrays (m.place a.start a.values) rest

/-- R36, R210: the state `load` builds: memory cleared, the arrays, then the instructions from cell 0 (last, so they win), and
every register at its value after load. -/
def loadedState (img : LoadImage) : State where
  mem := (Memory.placeArrays [] img.arrays).place entry img.instructions
  pc := entry
  sp := 0
  flag := flagReset
  out := []

/-- R210 with the preconditions of R212: a load that violates them is refused and produces no state (D13; log 8). -/
def load (img : LoadImage) : Except Refusal State :=
  if img.streamFits then
    match img.arrays.find? fun a => !a.fits with
    | some a => .error (.arrayTooLong a.start a.values.length)
    | none => .ok (loadedState img)
  else .error (.streamTooLong img.instructions.length)

end Sys2Proof.Machine
end

