-- ==== Sys2Proof/Machine/HostInterface.lean ====
section
/-! DEFINITION. The four operations the core offers the host (spec/10_state.md R38 to R40), the rendering of the output log
(R34), runs (spec/60_exceptions.md R202), and loading a source text (R214). -/

namespace Sys2Proof.Machine

/-! ### Step as a host transaction -/

/-- R185: what the host is told of a `step()`. -/
inductive StepReport where
  | executed
  | invalidOpcode (pc w : Word)
  | halted
  /-- Under `ADDR_POLICY = refuse` only (R53). -/
  | refused (r : Refusal)
  deriving DecidableEq, Repr

/-- R186, R188: the state after a step and what the host is told. Only an executed instruction changes the state. -/
def settle (s : State) (o : StepOutcome) : State × StepReport :=
  match o with
  | .next t => (t, .executed)
  | .fault (.invalidOpcode pc w) => (s, .invalidOpcode pc w)
  | .fault .halted => (s, .halted)
  | .refused r => (s, .refused r)

/-- R38: `step()` as the host sees it. -/
def hostStep (s : State) : State × StepReport := settle s (step s)

/-- R202: the state after `n` successive `step()` calls. -/
def hostRun (n : Nat) (s : State) : State :=
  match n with
  | 0 => s
  | k + 1 => hostRun k (hostStep s).1

/-- R40 (c): a loop of at most `n` steps that checks `isRunning()` before each. -/
def hostLoop (n : Nat) (s : State) : State :=
  match n with
  | 0 => s
  | k + 1 => if s.isRunning then hostLoop k (hostStep s).1 else s

/-! ### Snapshot and log -/

/-- R39: a read-only view of all state. -/
structure Snapshot where
  pc : Word
  sp : Word
  flag : Word
  /-- The full memory contents, cell 0 first. -/
  memory : List Word
  /-- `memory[stackBase .. stackBase+sp)`, oldest first; `none` where `sp` has left 0 to 16 (U15; log 15). -/
  liveStack : Option (List Word)
  out : List Word
  deriving DecidableEq, Repr

/-- R39, U15: the live stack slice; not rendered outside 0 to 16 entries. -/
def State.liveStack (s : State) : Option (List Word) :=
  if s.sp.toNat ≤ stackCells then some ((List.range s.sp.toNat).map fun k => s.cell (stackBase.toNat + k)) else none

/-- R39: `snapshot()`. -/
def State.snapshot (s : State) : Snapshot where
  pc := s.pc
  sp := s.sp
  flag := s.flag
  memory := (List.range memSize).map s.cell
  liveStack := s.liveStack
  out := s.out

/-- The decimal digits of `n`, at most `fuel` of them, put before `acc`. -/
def decimalDigits (fuel n : Nat) (acc : List Char) : List Char :=
  match fuel with
  | 0 => acc
  | f + 1 =>
    if n / 10 = 0 then Char.ofNat (48 + n % 10) :: acc
    else decimalDigits f (n / 10) (Char.ofNat (48 + n % 10) :: acc)

/-- R34: the unsigned base-10 numeral of a Word, no leading zeros and no sign; a Word has at most ten digits. -/
def renderWord (w : Word) : List Char := decimalDigits 10 w.toNat []

/-- R34: the output log as text, one decimal string an entry. -/
def State.renderedLog (s : State) : List String := s.out.map fun w => String.ofList (renderWord w)

/-! ### The four operations -/

/-- R38: the operations of the host. -/
inductive HostOp where
  | load (img : LoadImage)
  | step
  | isRunning
  | snapshot
  deriving DecidableEq, Repr

/-- What an operation answers. -/
inductive HostReply where
  | loaded
  /-- R212: nothing produced, nothing changed. -/
  | loadRefused (r : Refusal)
  | stepped (r : StepReport)
  | running (b : Bool)
  | view (v : Snapshot)
  /-- R37: there is no state before the first load. -/
  | nothingLoaded
  deriving DecidableEq, Repr

/-- R38: one operation, atomic with respect to the others. The machine is `none` before the first load (R37; log 2). -/
def transact (m : Option State) (op : HostOp) : Option State × HostReply :=
  match op, m with
  | .load img, _ =>
    match load img with
    | .ok s => (some s, .loaded)
    | .error r => (m, .loadRefused r)
  | .step, some s => (some (hostStep s).1, .stepped (hostStep s).2)
  | .isRunning, some s => (some s, .running s.isRunning)
  | .snapshot, some s => (some s, .view s.snapshot)
  | .step, none | .isRunning, none | .snapshot, none => (none, .nothingLoaded)

/-- A sequence of operations, one after the other (R40). -/
def transactAll (m : Option State) (ops : List HostOp) : Option State :=
  match ops with
  | [] => m
  | op :: rest => transactAll (transact m op).1 rest

/-- R114, R214: assemble a source text and load it; if assembly fails, "nothing is loaded, the previous machine state if any is
left untouched". -/
def loadSource (m : Option State) (source : List String) : Except AsmError (Option State × HostReply) :=
  match assemble params source with
  | .error e => .error e
  | .ok img => .ok (transact m (.load img))

end Sys2Proof.Machine
end

