-- ==== Sys2Proof/Safety.lean ====
section
/-! DEFINITION. What counts as a safe run and a run that has ended, in the terms claims use (spec/60_exceptions.md R187, R202;
the conventions of spec/70_reset_and_hazards.md R217 to R221, which the hardware does not check). -/

namespace Sys2Proof.Safety

open Sys2Proof.Machine

/-- R187: the one genuine fault of the running machine does not strike at `s`. -/
def noInvalidOpcode (s : State) : Prop := ∀ pc w, step s ≠ .fault (.invalidOpcode pc w)

/-- R202: a claim about a result takes "no `InvalidOpcode` was raised" along the run as part of what it proves. -/
def safeFor (n : Nat) (s : State) : Prop := ∀ k < n, noInvalidOpcode (hostRun k s)

/-- R202: the run from `s` ends normally with its step number `n + 1`: that step executes HLT. -/
def endsAfter (n : Nat) (s : State) : Prop :=
  (hostRun n s).isRunning = true ∧ fetch params (hostRun n s) = .next .hlt

/-- R217, R218: the conventions on the image handed to load. -/
def conventional (img : LoadImage) : Bool :=
  decide (img.instructions.length < stackBase.toNat) && img.arrays.all fun a => decide (arrayBase.toNat ≤ a.start.toNat)

/-- R219: no more than 16 entries on the stack. -/
def stackInRegion (s : State) : Bool := decide (s.sp.toNat ≤ stackCells)

/-- What every step keeps: the memory's canonical form, and R28: `flag` is one of 0, 1, 3 and 5. -/
def stateInvariant (s : State) : Prop := s.mem.wf ∧ legalFlag s.flag

/-- R87: the machine is running and bits 3:0 of the Word at `pc` are the code of `m`: the next step executes `m`. -/
abbrev atOpcode (m : Mnemonic) (s : State) : Prop :=
  s.isRunning = true ∧ opcodeOf (s.cell (cellIndex s.pc)) = params.opc m

/-- R12, R25: `t` is `s` after a push of `v` that landed in cell `a`, by an instruction of `length` cells: `sp` and `pc` move, that
cell is written, and nothing else changes. -/
def pushedTo (a : Nat) (v length : Word) (s t : State) : Prop :=
  t.pc = add32 s.pc length ∧ t.sp = add32 s.sp 1 ∧ t.flag = s.flag ∧ t.out = s.out ∧
  t.cell a = v ∧ ∀ b, b ≠ a → t.cell b = s.cell b

/-- R56, R87: the addresses the step at `s` accesses, in order: none on a halted machine; else `pc`, then PUSH's operand cell,
then what the instruction reads and what it writes. An address is meant as R53's `wrap` names its cell, which matters only
after an access at 1024 or more. -/
def stepAddrs (c : Config) (s : State) : List Word :=
  if s.isRunning then
    match decodeOpcode c (s.cell (cellIndex s.pc)) with
    | none => [s.pc]
    | some m =>
      let i := instrOf m (s.cell (cellIndex (add32 s.pc 1)))
      s.pc :: ((if m = .push then [add32 s.pc 1] else []) ++ s.readAddrs i ++ (s.writeAddr i).toList)
  else []

/-- R53: the first of the step's addresses that names no cell, if there is one. -/
def firstWildAddr (c : Config) (s : State) : Option Word := (stepAddrs c s).find? fun a => decide (memSize ≤ a.toNat)

/-- R175: the numbers `k < n` of the steps of the run from `s` that execute OUT, in order. -/
def outSteps (n : Nat) (s : State) : List Nat := (List.range n).filter fun k => decide (atOpcode .out (hostRun k s))

/-- R85: the same machine state under two numberings of the opcodes: in the cells of `code` the two hold words whose low bits
are the codes of one mnemonic, and every other cell and every register is equal. -/
def sameButNumbering (c d : Config) (code : Nat → Prop) (s s' : State) : Prop :=
  s'.pc = s.pc ∧ s'.sp = s.sp ∧ s'.flag = s.flag ∧ s'.out = s.out ∧
  (∀ a, ¬ code a → s'.cell a = s.cell a) ∧
  ∀ a, code a → ∃ m, opcodeOf (s.cell a) = c.opc m ∧ opcodeOf (s'.cell a) = d.opc m

/-- R91: the mnemonics a source line stands for in the emitted stream; a jump line is the pair PUSH, jump. -/
def lineMnemonics (line : SourceLine) : List Mnemonic :=
  match line with
  | .instr (.push _) => [.push]
  | .instr (.jump j _) => [.push, j.instr.mnemonic]
  | .instr (.plain p) => [p.instr.mnemonic]
  | .blank | .comment | .label _ | .array _ _ => []

/-- R108 to R113: what a source line emits under the symbols `st` of pass 1, read back as instructions: PUSH's operand is the
literal, 88 for a bare array name, the array's start plus `k`, and for a jump line the label's address. -/
def lineEmits (st : Symbols) (line : SourceLine) (is : List Instr) : Prop :=
  match line with
  | .instr (.push (.literal v)) => is = [.push v]
  | .instr (.push (.arrayName n)) => (st.arrayStart n).isSome = true ∧ is = [.push 88]
  | .instr (.push (.arrayOffset n k)) => ∃ a v, st.arrayStart n = some a ∧ v.toNat = a + k ∧ is = [.push v]
  | .instr (.push (.badIncrease _)) => False
  | .instr (.jump j l) => ∃ a v, st.labelAddr l = some a ∧ v.toNat = a ∧ is = [.push v, j.instr]
  | .instr (.plain p) => is = [p.instr]
  | .blank | .comment | .label _ | .array _ _ => is = []

/-- The line is a `JMP` line (R107). -/
def isJmpLine (line : SourceLine) : Bool :=
  match line with
  | .instr (.jump .jmp _) => true
  | _ => false

/-- R106: the name and the values of an array line. -/
def arrayOfLine (line : SourceLine) : Option (Name × List Word) :=
  match line with
  | .array n vs => some (n, vs)
  | _ => none

/-- R210, R211: the Word an image puts in cell `a`: the instruction stream's where it reaches, else that of the last array that
covers `a`, else 0. -/
def imageCell (img : LoadImage) (a : Nat) : Word :=
  match img.instructions[a]? with
  | some w => w
  | none =>
    match img.arrays.reverse.find? fun r => decide (r.start.toNat ≤ a ∧ a < r.start.toNat + r.values.length) with
    | some r => r.values.getD (a - r.start.toNat) 0
    | none => 0

end Sys2Proof.Safety
end

