-- ==== Sys2Proof/Certificates/Slice0/Obligations.lean ====
section
/-! DEFINITION. The statements for the provers. Each docstring names the rules of spec/ it formalises. -/

open Sys2Proof Sys2Proof.Machine Sys2Proof.Safety

/-! ## What each instruction does

Each says that the instruction answers a next state from every state, what that state holds, and that nothing else changed; and
that a step from a state with its code at `pc` is that instruction, so bits 31:4 of the instruction word have no effect. All of
them are at the spec's default parameters: cells are named by `EA(a) = a mod 1024`, which for an address of 1024 or more is the
spec's own decision (D3; log 4), and codes by the default `OPC` (D1; log 3). -/

/-- R130: the operand goes to the next free slot; `pc` moves by 2; the operand is the whole Word in the cell after the
instruction word.
At the spec's defaults of `ADDR_POLICY` and `OPC` (logs 3, 4). -/
def Obligations.PushStoresOperandInNextFreeSlot : Prop :=
  (∀ (v : Word) (s : State), ∃ t, exec (.push v) s = .next t ∧
    t.pc = add32 s.pc 2 ∧ t.sp = add32 s.sp 1 ∧ t.flag = s.flag ∧ t.out = s.out ∧
    t.cell (cellIndex s.freeAddr) = v ∧ ∀ a, a ≠ cellIndex s.freeAddr → t.cell a = s.cell a) ∧
  ∀ s, atOpcode .push s → step s = exec (.push (s.cell (cellIndex (add32 s.pc 1)))) s

/-- R131: a copy of the top goes to the next free slot.
At the spec's defaults of `ADDR_POLICY` and `OPC` (logs 3, 4). -/
def Obligations.DupCopiesTopToNextFreeSlot : Prop :=
  (∀ s : State, ∃ t, exec .dup s = .next t ∧
    t.pc = add32 s.pc 1 ∧ t.sp = add32 s.sp 1 ∧ t.flag = s.flag ∧ t.out = s.out ∧
    t.cell (cellIndex s.freeAddr) = s.cell (cellIndex s.topAddr) ∧
    ∀ a, a ≠ cellIndex s.freeAddr → t.cell a = s.cell a) ∧
  ∀ s, atOpcode .dup s → step s = exec .dup s

/-- R132: `sp` falls by 1, wrapping; the dropped Word stays in its cell.
At the spec's defaults of `ADDR_POLICY` and `OPC` (logs 3, 4). -/
def Obligations.DropOnlyLowersSp : Prop :=
  (∀ s : State, ∃ t, exec .drop s = .next t ∧
    t.pc = add32 s.pc 1 ∧ t.sp = sub32 s.sp 1 ∧ t.flag = s.flag ∧ t.out = s.out ∧ ∀ a, t.cell a = s.cell a) ∧
  ∀ s, atOpcode .drop s → step s = exec .drop s

/-- R140: the top is replaced by the Word of the cell it names; `sp` stays.
At the spec's defaults of `ADDR_POLICY` and `OPC` (logs 3, 4). -/
def Obligations.ReadReplacesAddressByItsCell : Prop :=
  (∀ s : State, ∃ t, exec .read s = .next t ∧
    t.pc = add32 s.pc 1 ∧ t.sp = s.sp ∧ t.flag = s.flag ∧ t.out = s.out ∧
    t.cell (cellIndex s.topAddr) = s.cell (cellIndex (s.cell (cellIndex s.topAddr))) ∧
    ∀ a, a ≠ cellIndex s.topAddr → t.cell a = s.cell a) ∧
  ∀ s, atOpcode .read s → step s = exec .read s

/-- R141: the second entry is stored at the cell the top names; both are popped.
At the spec's defaults of `ADDR_POLICY` and `OPC` (logs 3, 4). -/
def Obligations.WriteStoresSecondAtCellOfTop : Prop :=
  (∀ s : State, ∃ t, exec .write s = .next t ∧
    t.pc = add32 s.pc 1 ∧ t.sp = sub32 s.sp 2 ∧ t.flag = s.flag ∧ t.out = s.out ∧
    t.cell (cellIndex (s.cell (cellIndex s.topAddr))) = s.cell (cellIndex s.secondAddr) ∧
    ∀ a, a ≠ cellIndex (s.cell (cellIndex s.topAddr)) → t.cell a = s.cell a) ∧
  ∀ s, atOpcode .write s → step s = exec .write s

/-- R150: `pc` becomes the popped target, all 32 bits of it.
At the spec's defaults of `ADDR_POLICY` and `OPC` (logs 3, 4). -/
def Obligations.JmpGoesToPoppedTarget : Prop :=
  (∀ s : State, ∃ t, exec .jmp s = .next t ∧
    t.pc = s.cell (cellIndex s.topAddr) ∧ t.sp = sub32 s.sp 1 ∧ t.flag = s.flag ∧ t.out = s.out ∧
    ∀ a, t.cell a = s.cell a) ∧
  ∀ s, atOpcode .jmp s → step s = exec .jmp s

/-- R151: JE pops its target always, and goes there exactly if flag bits 1 and 2 are both 0.
At the spec's defaults of `ADDR_POLICY` and `OPC` (logs 3, 4). -/
def Obligations.JeJumpsIfBothComparisonBitsClear : Prop :=
  (∀ s : State, ∃ t, exec .je s = .next t ∧
    (s.flag.getLsbD 1 = false ∧ s.flag.getLsbD 2 = false → t.pc = s.cell (cellIndex s.topAddr)) ∧
    (s.flag.getLsbD 1 = true ∨ s.flag.getLsbD 2 = true → t.pc = add32 s.pc 1) ∧
    t.sp = sub32 s.sp 1 ∧ t.flag = s.flag ∧ t.out = s.out ∧ ∀ a, t.cell a = s.cell a) ∧
  ∀ s, atOpcode .je s → step s = exec .je s

/-- R152: JG pops its target always, and goes there exactly if flag bit 1 is 1.
At the spec's defaults of `ADDR_POLICY` and `OPC` (logs 3, 4). -/
def Obligations.JgJumpsIfFlagBitOne : Prop :=
  (∀ s : State, ∃ t, exec .jg s = .next t ∧
    (s.flag.getLsbD 1 = true → t.pc = s.cell (cellIndex s.topAddr)) ∧
    (s.flag.getLsbD 1 = false → t.pc = add32 s.pc 1) ∧
    t.sp = sub32 s.sp 1 ∧ t.flag = s.flag ∧ t.out = s.out ∧ ∀ a, t.cell a = s.cell a) ∧
  ∀ s, atOpcode .jg s → step s = exec .jg s

/-- R153: JL pops its target always, and goes there exactly if flag bit 2 is 1.
At the spec's defaults of `ADDR_POLICY` and `OPC` (logs 3, 4). -/
def Obligations.JlJumpsIfFlagBitTwo : Prop :=
  (∀ s : State, ∃ t, exec .jl s = .next t ∧
    (s.flag.getLsbD 2 = true → t.pc = s.cell (cellIndex s.topAddr)) ∧
    (s.flag.getLsbD 2 = false → t.pc = add32 s.pc 1) ∧
    t.sp = sub32 s.sp 1 ∧ t.flag = s.flag ∧ t.out = s.out ∧ ∀ a, t.cell a = s.cell a) ∧
  ∀ s, atOpcode .jl s → step s = exec .jl s

/-- R160: CMP pops both entries and `flag` becomes 0b011, 0b101 or 0b001 by their unsigned order; no cell changes.
At the default pairing (D11; log 5) and the other defaults (logs 3, 4). -/
def Obligations.CmpRecordsUnsignedOrderInFlag : Prop :=
  (∀ s : State, ∃ t, exec .cmp s = .next t ∧
    t.pc = add32 s.pc 1 ∧ t.sp = sub32 s.sp 2 ∧ t.out = s.out ∧ (∀ a, t.cell a = s.cell a) ∧
    let b := (s.cell (cellIndex s.topAddr)).toNat
    let a := (s.cell (cellIndex s.secondAddr)).toNat
    (b > a → t.flag = 0b011) ∧ (a > b → t.flag = 0b101) ∧ (a = b → t.flag = 0b001)) ∧
  ∀ s, atOpcode .cmp s → step s = exec .cmp s

/-- R160 (c), D11: under `CMP_PAIRING = second_sets_bit1` the two results are exchanged, and nothing else differs.
The pairing is the spec's own decision (D11; log 5); that CMP completes from every state, with the cells by `EA`, is
`ADDR_POLICY = wrap` (D3; log 4). -/
def Obligations.SecondPairingExchangesCmpResults : Prop :=
  ∀ (c : Config) (s : State), c.addrPolicy = .wrap → c.cmpPairing = .secondSetsBit1 →
    ∃ t u, exec .cmp s = .next t ∧ execAt c .cmp s = .next u ∧
      u.pc = t.pc ∧ u.sp = t.sp ∧ u.out = t.out ∧ u.mem = t.mem ∧
      (t.flag = 0b011 → u.flag = 0b101) ∧ (t.flag = 0b101 → u.flag = 0b011) ∧ (t.flag = 0b001 → u.flag = 0b001)

/-- R161: the top plus 1 modulo 2^32, in place.
At the spec's defaults of `ADDR_POLICY` and `OPC` (logs 3, 4). -/
def Obligations.IncAddsOneToTopInPlace : Prop :=
  (∀ s : State, ∃ t, exec .inc s = .next t ∧
    t.pc = add32 s.pc 1 ∧ t.sp = s.sp ∧ t.flag = s.flag ∧ t.out = s.out ∧
    (t.cell (cellIndex s.topAddr)).toNat = ((s.cell (cellIndex s.topAddr)).toNat + 1) % 2 ^ 32 ∧
    ∀ a, a ≠ cellIndex s.topAddr → t.cell a = s.cell a) ∧
  ∀ s, atOpcode .inc s → step s = exec .inc s

/-- R162: the top minus 1 modulo 2^32, in place; 0 becomes 2^32 - 1.
At the spec's defaults of `ADDR_POLICY` and `OPC` (logs 3, 4). -/
def Obligations.DecSubtractsOneFromTopInPlace : Prop :=
  (∀ s : State, ∃ t, exec .dec s = .next t ∧
    t.pc = add32 s.pc 1 ∧ t.sp = s.sp ∧ t.flag = s.flag ∧ t.out = s.out ∧
    ((t.cell (cellIndex s.topAddr)).toNat : Int) = ((s.cell (cellIndex s.topAddr)).toNat - 1 : Int) % 2 ^ 32 ∧
    ∀ a, a ≠ cellIndex s.topAddr → t.cell a = s.cell a) ∧
  ∀ s, atOpcode .dec s → step s = exec .dec s

/-- R163: the two top entries are replaced by their sum modulo 2^32, written where the second stood.
At the spec's defaults of `ADDR_POLICY` and `OPC` (logs 3, 4). -/
def Obligations.AddReplacesTopTwoBySum : Prop :=
  (∀ s : State, ∃ t, exec .add s = .next t ∧
    t.pc = add32 s.pc 1 ∧ t.sp = sub32 s.sp 1 ∧ t.flag = s.flag ∧ t.out = s.out ∧
    (t.cell (cellIndex s.secondAddr)).toNat =
      ((s.cell (cellIndex s.secondAddr)).toNat + (s.cell (cellIndex s.topAddr)).toNat) % 2 ^ 32 ∧
    ∀ a, a ≠ cellIndex s.secondAddr → t.cell a = s.cell a) ∧
  ∀ s, atOpcode .add s → step s = exec .add s

/-- R175: the top is popped and appended at the end of the log.
At the spec's defaults of `ADDR_POLICY` and `OPC` (logs 3, 4). -/
def Obligations.OutAppendsTopToLog : Prop :=
  (∀ s : State, ∃ t, exec .out s = .next t ∧
    t.pc = add32 s.pc 1 ∧ t.sp = sub32 s.sp 1 ∧ t.flag = s.flag ∧
    t.out = s.out ++ [s.cell (cellIndex s.topAddr)] ∧ ∀ a, t.cell a = s.cell a) ∧
  ∀ s, atOpcode .out s → step s = exec .out s

/-- R176: all of `flag` becomes 0; everything else stays, `pc` too; and every later step reports `Halted` (D7; log 6).
At the spec's defaults of `ADDR_POLICY` and `OPC` (logs 3, 4). -/
def Obligations.HltClearsFlagAndStaysThere : Prop :=
  (∀ s : State, ∃ t, exec .hlt s = .next t ∧
    t.pc = s.pc ∧ t.sp = s.sp ∧ t.flag = 0 ∧ t.out = s.out ∧ (∀ a, t.cell a = s.cell a) ∧
    ∀ n, hostStep (hostRun n t) = (t, .halted)) ∧
  ∀ s, atOpcode .hlt s → step s = exec .hlt s

/-! ## All instructions together -/

/-- R133: every instruction moves `sp` by the net change of the table, whatever `sp` was, a jump taken or not.
That no access is refused is the default `ADDR_POLICY` (log 4). -/
def Obligations.StackPointerMovesByTable : Prop :=
  ∀ (i : Instr) (s : State), ∃ t, exec i s = .next t ∧
    match i with
    | .push _ | .dup => t.sp = add32 s.sp 1
    | .drop | .jmp | .je | .jg | .jl | .out | .add => t.sp = sub32 s.sp 1
    | .write | .cmp => t.sp = sub32 s.sp 2
    | .read | .inc | .dec | .hlt => t.sp = s.sp

/-- R22: the table of what each instruction leaves in `pc`, and a step that executes nothing leaves it alone.
The cell of the popped target is by the default `ADDR_POLICY` (log 4), the last clause by D5 and D7 (logs 6, 7). -/
def Obligations.ProgramCounterMovesByTable : Prop :=
  (∀ (i : Instr) (s : State), ∃ t, exec i s = .next t ∧
    match i with
    | .push _ => t.pc = add32 s.pc 2
    | .read | .write | .dup | .drop | .out | .cmp | .inc | .dec | .add => t.pc = add32 s.pc 1
    | .jmp => t.pc = s.cell (cellIndex s.topAddr)
    | .je => t.pc = if s.flag.getLsbD 1 = false ∧ s.flag.getLsbD 2 = false then s.cell (cellIndex s.topAddr) else add32 s.pc 1
    | .jg => t.pc = if s.flag.getLsbD 1 = true then s.cell (cellIndex s.topAddr) else add32 s.pc 1
    | .jl => t.pc = if s.flag.getLsbD 2 = true then s.cell (cellIndex s.topAddr) else add32 s.pc 1
    | .hlt => t.pc = s.pc) ∧
  ∀ s, (hostStep s).2 ≠ .executed → (hostStep s).1.pc = s.pc

/-- R28: the writers of `flag` are load, CMP and HLT, each with its values, and in the runs of loaded programs `flag` holds
exactly 0, 1, 3 and 5.
That the values are exactly these is an inference the spec marks as its own ("derived: from the three writers named in this
rule"); that every instruction completes from every state is the default `ADDR_POLICY` (D3; log 4). That a step that executes nothing
leaves `flag` alone is D5 and D7 (logs 6, 7). -/
def Obligations.FlagWrittenOnlyByLoadCmpHlt : Prop :=
  (∀ img s, load img = .ok s → s.flag = 0b001) ∧
  (∀ (i : Instr) (s : State), ∃ t, exec i s = .next t ∧
    match i with
    | .cmp => t.flag = 1 ∨ t.flag = 3 ∨ t.flag = 5
    | .hlt => t.flag = 0
    | .push _ | .read | .write | .dup | .drop | .jmp | .out | .inc | .dec | .je | .jg | .add | .jl => t.flag = s.flag) ∧
  ∀ f : Word, (∃ img s n, load img = .ok s ∧ (hostRun n s).flag = f) ↔ f = 0 ∨ f = 1 ∨ f = 3 ∨ f = 5

/-- R56: an instruction changes no cell but the one the table of accesses lets it write.
Order and cells as the spec decides them (D18, D3; logs 4, 17). -/
def Obligations.OnlyTheTabledCellIsWritten : Prop :=
  ∀ (i : Instr) (s : State), ∃ t, exec i s = .next t ∧ ∀ a, s.dataWrite i ≠ some a → t.cell a = s.cell a

/-- R56: an instruction's result depends on no cell but those the table of accesses lets it read: two states that agree on
those and on the registers get equal registers and an equal Word in the written cell.
Order and cells as the spec decides them (D18, D3; logs 4, 17). -/
def Obligations.ResultDependsOnlyOnTabledReads : Prop :=
  ∀ (i : Instr) (s s' : State),
    s'.pc = s.pc → s'.sp = s.sp → s'.flag = s.flag → s'.out = s.out →
    (∀ a ∈ s.dataReads i, s'.cell a = s.cell a) →
    ∃ t t', exec i s = .next t ∧ exec i s' = .next t' ∧
      t'.pc = t.pc ∧ t'.sp = t.sp ∧ t'.flag = t.flag ∧ t'.out = t.out ∧
      s'.dataWrite i = s.dataWrite i ∧ ∀ a, s.dataWrite i = some a → t'.cell a = t.cell a

/-- R34, R175: `out` only grows, by one Word for each OUT and by nothing else; along every run, by the top of each step that
executes OUT, in order.
The log as a list of Words is D9 (log 18); cells and codes are at the defaults (logs 3, 4); that a step that executes nothing
leaves the log alone is D5 and D7 (logs 6, 7). -/
def Obligations.LogOnlyGrowsByOut : Prop :=
  (∀ (i : Instr) (s : State), ∃ t, exec i s = .next t ∧
    t.out = s.out ++ (if i = .out then [s.cell (cellIndex s.topAddr)] else [])) ∧
  ∀ (n : Nat) (s : State), (hostRun n s).out =
    s.out ++ (outSteps n s).map fun k => (hostRun k s).cell (cellIndex (hostRun k s).topAddr)

/-- R154: which conditional jump is taken after `PUSH x; PUSH y; CMP`, from any state; exactly one of the three is, in every
later state whose `flag` is the one CMP left.
At the default pairing (D11; log 5); that all six complete from any state, and that the target is the Word of the cell by `EA`,
is the default `ADDR_POLICY` (D3; log 4). -/
def Obligations.ConditionalJumpsFollowLastCmp : Prop :=
  ∀ (x y : Word) (s : State), ∃ s1 s2 s3,
    exec (.push x) s = .next s1 ∧ exec (.push y) s1 = .next s2 ∧ exec .cmp s2 = .next s3 ∧ s3.sp = s.sp ∧
    ∀ u : State, u.flag = s3.flag → ∃ e g l,
      exec .je u = .next e ∧ exec .jg u = .next g ∧ exec .jl u = .next l ∧
      e.pc = (if x = y then u.cell (cellIndex u.topAddr) else add32 u.pc 1) ∧
      g.pc = (if x.toNat < y.toNat then u.cell (cellIndex u.topAddr) else add32 u.pc 1) ∧
      l.pc = (if y.toNat < x.toNat then u.cell (cellIndex u.topAddr) else add32 u.pc 1)

/-- R26: no bound is checked on `sp`. With 16 entries PUSH and DUP write cell 88 and make `sp` 17. With none a pop (OUT) reads
cell 71 and makes `sp` 0xFFFFFFFF, a push after it writes cell 71 and makes `sp` 0, and DUP copies cell 71 to cell 72. With
fewer than 16 entries PUSH and DUP write cell `72 + sp`, which is one of 72 to 87. Nothing else changes in any of these.
That PUSH, DUP and the pops address by `EA` is the default `ADDR_POLICY` (D3; log 4). -/
def Obligations.StackOverflowAndUnderflowAreSilent : Prop :=
  (∀ (v : Word) (s : State), s.sp = 16 → ∃ t, exec (.push v) s = .next t ∧ t.sp = 17 ∧ pushedTo 88 v 2 s t) ∧
  (∀ s : State, s.sp = 16 → ∃ t, exec .dup s = .next t ∧ t.sp = 17 ∧ pushedTo 88 (s.cell 87) 1 s t) ∧
  (∀ (v : Word) (s : State), s.sp = 0 → ∃ t u,
    exec .out s = .next t ∧ t.pc = add32 s.pc 1 ∧ t.sp = 0xFFFFFFFF ∧ t.flag = s.flag ∧ t.out = s.out ++ [s.cell 71] ∧
    (∀ a, t.cell a = s.cell a) ∧ exec (.push v) t = .next u ∧ u.sp = 0 ∧ pushedTo 71 v 2 t u) ∧
  (∀ s : State, s.sp = 0 → ∃ t, exec .dup s = .next t ∧ t.sp = 1 ∧ pushedTo 72 (s.cell 71) 1 s t) ∧
  ∀ (v : Word) (s : State), s.sp.toNat < 16 →
    cellIndex s.freeAddr = 72 + s.sp.toNat ∧
    (∃ t, exec (.push v) s = .next t ∧ stackInRegion t = true ∧ pushedTo (cellIndex s.freeAddr) v 2 s t) ∧
    ∃ t, exec .dup s = .next t ∧ stackInRegion t = true ∧
      pushedTo (cellIndex s.freeAddr) (s.cell (cellIndex s.topAddr)) 1 s t

/-! ## Invariant -/

/-- Every step keeps the memory's canonical form and R28's legal values of `flag`, from every state that has them.
The form is the model's own (log 1); that `flag` holds these values only is an inference R28 marks as its own. -/
def Obligations.StepKeepsMemoryFormAndLegalFlag : Prop :=
  ∀ s t : State, stateInvariant s → step s = .next t → stateInvariant t

/-- R36: the state after reset is what `load` of an empty program builds; it has the invariant.
That reset is a load of nothing is the model's choice (log 2). -/
def Obligations.ResetIsEmptyLoadAndLegal : Prop :=
  load { instructions := [], arrays := [] } = .ok State.reset ∧ stateInvariant State.reset ∧
    State.reset.pc = 0 ∧ State.reset.sp = 0 ∧ State.reset.flag = 0b001 ∧ State.reset.out = [] ∧
    ∀ a, State.reset.cell a = 0

/-- The canonical form is canonical: two memories in it that agree on every cell are equal data.
The form is the model's own (log 1). -/
def Obligations.CanonicalMemoriesEqualIfCellsAgree : Prop :=
  ∀ m m' : Memory, m.wf → m'.wf → (∀ a < memSize, m.read a = m'.read a) → m = m'

/-! ## The step cycle, faults and runs -/

/-- R87: when the Words at `pc` decode to an instruction, a running machine's step is `exec` of it.
The Words are those of the cells by `EA`, at the default `ADDR_POLICY` (D3; log 4), read by the default `OPC` (D1; log 3). -/
def Obligations.StepRunsDecodedInstruction : Prop :=
  ∀ (s : State) (i : Instr) (rest : List Word), s.isRunning = true →
    decode params [s.cell (cellIndex s.pc), s.cell (cellIndex (add32 s.pc 1))] = .ok (i, rest) → step s = exec i s

/-- R88, R186: a running machine's step raises `InvalidOpcode`, with the fetch address and the whole fetched Word, exactly if
the Word's bits 3:0 are 15, the one unassigned code; the host sees no state changed.
The report and the unchanged state (D5), the gate before the fetch (D6) and the code 15 (D1, D2) are the spec's own decisions
(logs 3, 7); that the fetched Word is that of cell `pc mod 1024` for every `pc` is the default `ADDR_POLICY` (D3; log 4). -/
def Obligations.InvalidOpcodeExactlyOnUnassignedCode : Prop :=
  ∀ s : State, s.isRunning = true →
    ((s.cell (cellIndex s.pc)).toNat % 16 = 15 ↔ step s = .fault (.invalidOpcode s.pc (s.cell (cellIndex s.pc)))) ∧
    ((s.cell (cellIndex s.pc)).toNat % 16 = 15 → hostStep s = (s, .invalidOpcode s.pc (s.cell (cellIndex s.pc))))

/-- R188, R190: a step reports `Halted` exactly if the running bit is 0, whatever `pc` addresses and whatever the
configuration; the host sees no state changed.
The report and the order of the two tests are the spec's own decisions (D6, D7; logs 6, 7). -/
def Obligations.HaltedExactlyIfRunningBitClear : Prop :=
  (∀ s : State, step s = .fault .halted ↔ s.flag.getLsbD 0 = false) ∧
  (∀ s : State, s.flag.getLsbD 0 = false → hostStep s = (s, .halted)) ∧
  ∀ (c : Config) (s : State), stepAt c s = .fault .halted ↔ s.flag.getLsbD 0 = false

/-- R185: a step executes one instruction, raises `InvalidOpcode` (bits 3:0 of the Word fetched at `pc` are no instruction's
code) or reports `Halted` (the running bit is 0); the last two record nothing in the machine. R190: no instruction raises
anything after decode.
That nothing is refused is the default `ADDR_POLICY` (D3; log 4); the report of `pc` and the Word with the state unchanged, and
the gate before the fetch, are the spec's decisions D5 and D6 (log 7), the halted outcome is D7 (log 6). -/
def Obligations.StepEndsInOneOfThreeWays : Prop :=
  (∀ s : State,
    (s.isRunning = true ∧ ∃ i t, fetch params s = .next i ∧ exec i s = .next t ∧ step s = .next t ∧
      hostStep s = (t, .executed)) ∨
    (s.isRunning = true ∧ ∃ w, w = s.cell (cellIndex s.pc) ∧ (∀ m, params.opc m ≠ opcodeOf w) ∧
      step s = .fault (.invalidOpcode s.pc w) ∧ hostStep s = (s, .invalidOpcode s.pc w)) ∨
    (s.isRunning = false ∧ step s = .fault .halted ∧ hostStep s = (s, .halted))) ∧
  ∀ (c : Config) (i : Instr) (s : State) (f : Fault), execAt c i s ≠ .fault f

/-- R187: `InvalidOpcode` is permanent: every later step raises it again, with no state changed and the machine not halted.
By the spec's decisions that the failing step changes nothing (D5) and that a halted machine does not fetch (D6; log 7). -/
def Obligations.InvalidOpcodeRepeatsForever : Prop :=
  ∀ (s : State) (pc w : Word), step s = .fault (.invalidOpcode pc w) →
    s.isRunning = true ∧ ∀ n, hostRun n s = s ∧ hostStep (hostRun n s) = (s, .invalidOpcode pc w)

/-- R201: HLT enters the halted state, and no other instruction does; nothing wakes the machine from it, all state survives in
it; only a load leaves it. R28, R177: no other instruction clears the running bit.
That every step reports halted with the state unchanged is D7 (log 6), that the gate comes before the fetch D6 (log 7), that a
load that fits is the one accepted D13 (log 8), the four operations are D10 (log 19). What a snapshot of it shows is SnapshotShowsAllAndChangesNothing. -/
def Obligations.HaltedMachineStaysHalted : Prop :=
  (∀ s : State, ∃ t, exec .hlt s = .next t ∧ t.isRunning = false) ∧
  (∀ (s t : State), step s = .next t → t.isRunning = false → fetch params s = .next .hlt) ∧
  (∀ (s : State) (n : Nat), s.isRunning = false → hostRun n s = s ∧ hostStep (hostRun n s) = (s, .halted)) ∧
  (∀ (s : State) (op : HostOp), s.isRunning = false → (∀ img, op ≠ .load img) → (transact (some s) op).1 = some s) ∧
  ∀ (s : State) (img : LoadImage), img.wf = true →
    ∃ t, transact (some s) (.load img) = (some t, .loaded) ∧ t.isRunning = true

/-- R40 (c), R200: a loop that checks `isRunning()` before each step passes through the same states as unchecked stepping.
By the spec's decision on a halted step (D7; log 6). -/
def Obligations.CheckedLoopEqualsPlainStepping : Prop :=
  ∀ (n : Nat) (s : State), hostLoop n s = hostRun n s

/-- R202: a run that ends normally halts in a state with `flag` 0 and `pc` on the HLT word, everything else as the program left
it, where it stays; and no `InvalidOpcode` was raised on the way.
By the spec's decisions on the two conditions (D5, D7; logs 6, 7); the HLT word is that of the cell by `EA` (D3; log 4), with the
code of the default `OPC` (D1; log 3). -/
def Obligations.NormalEndHaltsOnHltWordWithoutFault : Prop :=
  ∀ (n : Nat) (s : State), endsAfter n s →
    (hostRun (n + 1) s).flag = 0 ∧ (hostRun (n + 1) s).pc = (hostRun n s).pc ∧ (hostRun (n + 1) s).sp = (hostRun n s).sp ∧
    (hostRun (n + 1) s).mem = (hostRun n s).mem ∧ (hostRun (n + 1) s).out = (hostRun n s).out ∧
    opcodeOf ((hostRun (n + 1) s).cell (cellIndex (hostRun (n + 1) s).pc)) = params.opc .hlt ∧
    (∀ k, hostRun (n + 1 + k) s = hostRun (n + 1) s) ∧ safeFor (n + 1) s

/-- R66: a WRITE onto the next instruction word is what the very next step fetches and executes.
At the defaults of `ADDR_POLICY` and `OPC` (logs 3, 4). -/
def Obligations.StoreToNextInstructionIsExecuted : Prop :=
  ∀ (s : State) (m : Mnemonic), s.isRunning = true →
    cellIndex (s.cell (cellIndex s.topAddr)) = cellIndex (add32 s.pc 1) →
    opcodeOf (s.cell (cellIndex s.secondAddr)) = params.opc m →
    ∃ t, exec .write s = .next t ∧ step t = exec (instrOf m (t.cell (cellIndex (add32 t.pc 1)))) t

/-- `exec` and `step` are the parametric machine at the defaults of R7.
The defaults are the spec's own decisions (logs 3, 4, 5, 9). -/
def Obligations.DefaultMachineIsParametricMachine : Prop :=
  (∀ (i : Instr) (s : State), exec i s = execAt params i s) ∧ ∀ s : State, step s = stepAt params s

/-- R53, D3: under `ADDR_POLICY = refuse` a step all of whose addresses (R56, in their order) are below 1024 is the step under
`wrap`, and a step that accesses an address of 1024 or more is refused, naming the first such address.
The policy is the spec's own decision (D3; log 4), and so are the order of the addresses (D18; log 17) and that a halted machine
accesses none (D6; log 7). -/
def Obligations.RefusePolicyOnlyRefusesWildAddresses : Prop :=
  ∀ (c : Config) (s : State),
    match firstWildAddr c s with
    | none => stepAt { c with addrPolicy := .refuse } s = stepAt { c with addrPolicy := .wrap } s
    | some a => 1024 ≤ a.toNat ∧ stepAt { c with addrPolicy := .refuse } s = .refused (.addressBeyondMemory a)

/-- R85: the semantics does not depend on the numbers of `OPC`. If a run's next instruction word lies in `code`, its operand
and its data accesses do not, then the machine with the other numbering and the code cells renumbered takes the same step.
Under `ADDR_POLICY = wrap` (log 4). -/
def Obligations.OpcodeNumberingIsImmaterial : Prop :=
  ∀ (c d : Config) (code : Nat → Prop) (s s' t : State) (i : Instr),
    c.wf = true → d.wf = true → c.addrPolicy = .wrap → d.addrPolicy = .wrap → c.cmpPairing = d.cmpPairing →
    sameButNumbering c d code s s' → code (cellIndex s.pc) → fetch c s = .next i →
    (∀ v, i = .push v → ¬ code (cellIndex (add32 s.pc 1))) →
    (∀ a ∈ s.dataReads i, ¬ code a) → (∀ a, s.dataWrite i = some a → ¬ code a) →
    stepAt c s = .next t → ∃ t', stepAt d s' = .next t' ∧ sameButNumbering c d code t t'

/-- The host's placement of one instruction: whatever its table word decodes to is what the next step executes.
The placement is the model's own (log 2), in the cells by `EA` (D3; log 4), decoded by the default `OPC` (D1; log 3). -/
def Obligations.PlacedInstructionIsExecutedNext : Prop :=
  ∀ (s : State) (nbits w : Nat) (i : Instr), decodeTableWord nbits w = some i →
    step (s.withFetchWord nbits w) = exec i (s.withFetchWord nbits w)

/-! ## Memory addressing -/

/-- R53, R57: an access at any Word reaches cell `a mod 1024`: a write is seen by every read of that cell, by no other.
For 1024 and above this is the spec's decision D3 (log 4). -/
def Obligations.WriteIsReadBackModulo1024 : Prop :=
  ∀ (s : State) (a b v : Word), ∃ t, s.memWrite params a v = .ok t ∧
    t.memRead params b = .ok (if b.toNat % 1024 = a.toNat % 1024 then v else s.cell (b.toNat % 1024)) ∧
    t.pc = s.pc ∧ t.sp = s.sp ∧ t.flag = s.flag ∧ t.out = s.out

/-- R54: reducing an address modulo 2^32 and then modulo 1024 equals reducing the unreduced sum modulo 1024.
`EA` is the spec's decision D3 (log 4). -/
def Obligations.EffectiveAddressOfSum : Prop :=
  ∀ x y : Word, cellIndex (add32 x y) = (x.toNat + y.toNat) % 1024

/-! ## Encoding -/

/-- R80 to R85: the decoder reads back every encoded instruction, with every operand, under every injective `OPC`, and leaves
the Words after it.
The encoder's upper bits are 0 by the spec's decision D12 (log 23); that 15 instructions exist is D2 (log 3). -/
def Obligations.DecodeInvertsEncode : Prop :=
  ∀ (c : Config) (i : Instr) (rest : List Word), c.wf = true → decode c (encode c i ++ rest) = .ok (i, rest)

/-- R80, R81: what decodes to an instruction is its encoding but for the ignored bits 31:4 of the first Word.
The encoder's upper bits are 0 by the spec's decision D12 (log 23). -/
def Obligations.DecodedWordsAreEncodingButForIgnoredBits : Prop :=
  ∀ (c : Config) (w : Word) (tail rest : List Word) (i : Instr), decode c (w :: tail) = .ok (i, rest) →
    ∃ operands, encode c i = (opcodeOf w).setWidth 32 :: operands ∧ tail = operands ++ rest

/-- R80: the opcode is `w[3:0] = extractBits(w, 0, 3) = w mod 16`, and the decoder never looks at bits 31:4. -/
def Obligations.DecoderIgnoresUpperBits : Prop :=
  (∀ w : Word, (opcodeOf w).toNat = (extractBits w 0 3).toNat ∧ (opcodeOf w).toNat = w.toNat % 16) ∧
  ∀ (c : Config) (w w' : Word) (tail : List Word), w.toNat % 16 = w'.toNat % 16 →
    (decode c (w :: tail)).toOption = (decode c (w' :: tail)).toOption

/-- R86: under every injective `OPC` exactly one of the sixteen codes names no instruction; under the default it is 15.
That 15 instructions exist is the spec's decision D2, the default D1 (log 3). -/
def Obligations.ExactlyOneCodeIsUnassigned : Prop :=
  (∀ c : Config, c.wf = true → ∃ k : Opcode, (∀ m, c.opc m ≠ k) ∧ ∀ k', (∀ m, c.opc m ≠ k') → k' = k) ∧
  ∀ k : Opcode, (∀ m, params.opc m ≠ k) ↔ k = 15

/-- R85 at the default `OPC` (the spec's own choice, D1; log 3): some Words written out bit by bit, with ignored bits set. -/
def Obligations.SampleWordsDecode : Prop :=
  decodeTableWord 64 0x0000000A_00000000 = some (.push 10) ∧
  decodeTableWord 32 0b1010_1011_1100_1101_1110_1111_0000_0001 = some .read ∧
  decodeTableWord 32 0b0101 = some .jmp ∧
  decodeTableWord 32 0b1111_1111_1111_1111_1111_1111_1111_0110 = some .out ∧
  decodeTableWord 32 0b1100 = some .add ∧
  decodeTableWord 32 0b0001_1110 = some .hlt ∧
  decodeTableWord 32 0b1111 = none

/-! ## Load and the host -/

/-- R210, R211: a load that fits builds exactly the image (instructions over arrays, a later array over an earlier one, 0
elsewhere) and R36's registers.
The canonical form in the invariant is the model's own (log 1); the legal values of `flag` are R28's. What fits, and so has a
meaning, is the spec's decision D13 (log 8). -/
def Obligations.LoadBuildsImageInOrder : Prop :=
  ∀ img : LoadImage, img.wf = true → ∃ s, load img = .ok s ∧
    s.pc = 0 ∧ s.sp = 0 ∧ s.flag = 0b001 ∧ s.out = [] ∧ stateInvariant s ∧ ∀ a, s.cell a = imageCell img a

/-- R217, R218: an image that keeps the conventions (a stream shorter than 72 Words, arrays from 88 up) leaves the stack region
clear: load writes 0 to every cell (R36, R210) and no convention lets it write one of these again.
That an array past address 1023, whose Words could wrap into the region, is refused and not loaded is the spec's decision D13
(log 8). -/
def Obligations.ConventionalImageLeavesStackRegionClear : Prop :=
  ∀ (img : LoadImage) (s : State), conventional img = true → load img = .ok s → ∀ a, 72 ≤ a → a ≤ 87 → s.cell a = 0

/-- R212: a load that does not fit the memory is refused, and the machine, if any, is as before.
By the spec's decision D13 (log 8); load as an operation of the host is D10 (log 19). -/
def Obligations.OversizedLoadIsRefused : Prop :=
  ∀ (img : LoadImage) (m : Option State),
    (1024 < img.instructions.length ∨ ∃ r ∈ img.arrays, 1024 < r.start.toNat + r.values.length) →
    ∃ r, transact m (.load img) = (m, .loadRefused r)

/-- R36, R213: nothing persists across a load: whatever operations went before, the machine is the loaded one.
By the spec's decision D8 that reset is load (log 2); the operations are D10 (log 19), and that a load that fits is accepted is
D13 (log 8). -/
def Obligations.NothingPersistsAcrossLoad : Prop :=
  ∀ (img : LoadImage) (m m' : Option State) (ops ops' : List HostOp), img.wf = true →
    ∃ s, load img = .ok s ∧ transactAll m (ops ++ [.load img]) = some s ∧ transactAll m' (ops' ++ [.load img]) = some s

/-- R29, R38, R39: `isRunning` answers flag bit 0 and `snapshot` a view; both change nothing. The view shows every register, every
cell, and, for 0 to 16 entries, the live stack from cell 72 up.
That these are operations of the host interface is the spec's decision D10 (log 19). -/
def Obligations.SnapshotShowsAllAndChangesNothing : Prop :=
  ∀ s : State,
    transact (some s) .isRunning = (some s, .running (s.flag.getLsbD 0)) ∧
    ∃ v, transact (some s) .snapshot = (some s, .view v) ∧
      v.pc = s.pc ∧ v.sp = s.sp ∧ v.flag = s.flag ∧ v.out = s.out ∧
      v.memory.length = 1024 ∧ (∀ a < 1024, v.memory[a]? = some (s.cell a)) ∧
      (s.sp.toNat ≤ 16 → ∃ l, v.liveStack = some l ∧ l.length = s.sp.toNat ∧
        ∀ k < s.sp.toNat, l[k]? = some (s.cell (72 + k)))

/-- R34: the rendering of a log entry is its decimal numeral: it reads back as the Word, and only "0" itself begins with 0.
By the spec's decision D9 (log 18). -/
def Obligations.RenderedWordReadsBack : Prop :=
  ∀ w : Word, parseWord (renderWord w) = some w ∧ ((renderWord w).head? = some '0' → renderWord w = ['0'])

/-! ## The assembler -/

/-- R104, R105, R107: pass 1 and pass 2 agree: a label's address is the number of Words emitted for the lines before it, less,
only under `ASM_JMP_EXTRA = false`, one for each `JMP` line among them.
By the spec's decisions D14 and D15 (log 9). -/
def Obligations.LabelAddressIsWordsEmittedBefore : Prop :=
  ∀ (c : Config) (before after : List SourceLine) (l : Name) (st : Symbols) (is : List Instr),
    passOne c Symbols.initial (before ++ .label l :: after) = .ok st → passTwo st before = .ok is →
    ∃ a, st.labelAddr l = some a ∧
      a + (if c.asmJmpExtra then 0 else before.countP isJmpLine) = (encodeAll c is).length

/-- R91: listing an assembled stream gives back the source's mnemonics in order, a jump line as the pair PUSH, jump. -/
def Obligations.ListingReproducesSourceMnemonics : Prop :=
  ∀ (c : Config) (lines : List SourceLine) (img : LoadImage), c.wf = true → assembleLines c lines = .ok img →
    ∃ is, listing c img.instructions = .ok is ∧ is.map Instr.mnemonic = lines.flatMap lineMnemonics

/-- R106: the arrays are placed in source order, the first at 88, each next one 3 cells past the end of the one before. -/
def Obligations.ArraysPlacedWithGaps : Prop :=
  ∀ (c : Config) (lines : List SourceLine) (st : Symbols), passOne c Symbols.initial lines = .ok st →
    st.arrays.map (fun r => (r.name, r.values)) = lines.filterMap arrayOfLine ∧
    (∀ r, st.arrays[0]? = some r → r.start = 88) ∧
    ∀ k r q, st.arrays[k]? = some r → st.arrays[k + 1]? = some q → q.start = r.start + r.values.length + 3

/-- R112, R114: a jump to a label that no line defines fails the whole assembly, wherever it stands; where pass 1 succeeds and
pass 2 emits every line before it, the failure is `UndefinedLabel` of that label.
Over classified lines, so independent of how text is split (log 11); that the first failure met is the one reported is the
model's choice (log 14). -/
def Obligations.UndefinedLabelFailsAssembly : Prop :=
  (∀ (c : Config) (lines : List SourceLine) (j : Jump) (l : Name), .instr (.jump j l) ∈ lines → .label l ∉ lines →
    ∀ img, assembleLines c lines ≠ .ok img) ∧
  ∀ (c : Config) (before after : List SourceLine) (j : Jump) (l : Name) (st : Symbols) (is : List Instr),
    .label l ∉ before ++ .instr (.jump j l) :: after →
    passOne c Symbols.initial (before ++ .instr (.jump j l) :: after) = .ok st → passTwo st before = .ok is →
    assembleLines c (before ++ .instr (.jump j l) :: after) = .error (.undefinedLabel l)

/-- R101: blank lines and lines that begin with `//` are ignored, wherever they stand.
White space and a comment's first character as the model takes them (log 11). -/
def Obligations.BlankAndCommentLinesAreIgnored : Prop :=
  ∀ (c : Config) (before after : List String) (l : String),
    (l.toList.take 2 = ['/', '/'] ∨ ∀ ch ∈ l.toList, isSpace ch = true) →
    assemble c (before ++ l :: after) = assemble c (before ++ after)

/-- R110, R111: `PUSH name` stands for 88 whichever array is named; `PUSH name+k` for the array's own start plus `k`.
That a name belongs to one array, since a second declaration is rejected, is the spec's decision D16 (log 12); sums that are no
Word are left out, as the model rejects them (log 13). -/
def Obligations.ArrayOperandsResolve : Prop :=
  ∀ (c : Config) (lines : List SourceLine) (st : Symbols) (r : PlacedArray),
    passOne c Symbols.initial lines = .ok st → r ∈ st.arrays →
    operandWord st (.arrayName r.name) = .ok 88 ∧
    ∀ k, r.start + k < 2 ^ 32 → ∃ v, operandWord st (.arrayOffset r.name k) = .ok v ∧ v.toNat = r.start + k

/-- R108 to R113: what assembly emits, line by line: the encoding of what the line stands for, a PUSH of a literal with that
literal, a PUSH of a bare array name with 88, a PUSH of `name+k` with the array's start plus `k`, a jump line with the address
pass 1 bound to its label and then the jump. R100: beside it, the arrays at the start addresses of pass 1.
Over classified lines (log 11); a start, a sum or an address that is no Word is rejected by the model's choice (logs 13, 21); the
addresses of labels are by D14 and D15 (log 9), the upper bits of an instruction word by D12 (log 23). -/
def Obligations.EmittedOperandsAreLiteralsAndAddresses : Prop :=
  ∀ (c : Config) (lines : List SourceLine) (img : LoadImage), assembleLines c lines = .ok img →
    ∃ (st : Symbols) (iss : List (List Instr)), passOne c Symbols.initial lines = .ok st ∧
      List.Forall₂ (lineEmits st) lines iss ∧ img.instructions = encodeAll c iss.flatten ∧
      img.arrays.map (fun r => (r.name, r.start.toNat, r.values)) = st.arrays.map (fun r => (r.name, r.start, r.values))
end

