-- ==== Sys2Proof/Laws/Word.lean ====
section
/-! SUPPORT. The values of the two widths, and what the arithmetic helpers do to values. `simp` brings arithmetic on Words
down to numerals with these; before `omega`, `simp only [bitvec_to_nat, wordBits_eq] at *` does the same. -/

namespace Sys2Proof

@[simp] theorem wordBits_eq : wordBits = 32 := rfl
@[simp] theorem opcodeBits_eq : opcodeBits = 4 := rfl

theorem toNat_lt_two_pow (a : Word) : a.toNat < 4294967296 := a.isLt

/-- R9: `add32(a, b) = (a + b) mod 2^32`. -/
theorem add32_toNat (a b : Word) : (add32 a b).toNat = (a.toNat + b.toNat) % 4294967296 := BitVec.toNat_add a b

/-- R9: `sub32(a, b) = (a - b) mod 2^32`, the mathematical modulus. -/
theorem sub32_toNat (a b : Word) : (sub32 a b).toNat = (a.toNat + (4294967296 - b.toNat)) % 4294967296 :=
  (BitVec.toNat_sub a b).trans (congrArg (· % 4294967296) (Nat.add_comm _ _))

theorem add32_one_one (a : Word) : add32 (add32 a 1) 1 = add32 a 2 := BitVec.add_assoc a 1 1

theorem sub32_one_one (a : Word) : sub32 (sub32 a 1) 1 = sub32 a 2 := BitVec.sub_sub a 1 1

end Sys2Proof
end

