-- ==== Sys2Proof/Laws/Decode.lean ====
section
/-! SUPPORT. The decoder's small lemmas. -/

namespace Sys2Proof

theorem Mnemonic.mem_all (m : Mnemonic) : m ∈ Mnemonic.all := by cases m <;> decide

/-- R80: the opcode is the low four bits, whatever the others hold. -/
theorem opcodeOf_eq (w : Word) : opcodeOf w = w.setWidth 4 := by
  apply BitVec.eq_of_toNat_eq
  simp only [opcodeOf, extractBits, BitVec.toNat_ofNat, BitVec.toNat_setWidth, wordBits, opcodeBits]
  omega

theorem Config.opc_injective {c : Config} (hc : c.wf = true) {m n : Mnemonic} (h : c.opc m = c.opc n) : m = n := by
  have := List.all_eq_true.1 (List.all_eq_true.1 hc m m.mem_all) n n.mem_all
  simpa [h] using this

/-- R85: a Word whose low bits are a mnemonic's code decodes to that mnemonic. -/
theorem decodeOpcode_of_code {c : Config} (hc : c.wf = true) {w : Word} {m : Mnemonic} (h : opcodeOf w = c.opc m) :
    decodeOpcode c w = some m := by
  unfold decodeOpcode
  cases hf : Mnemonic.all.find? fun n => c.opc n == opcodeOf w with
  | none => exact absurd (List.find?_eq_none.1 hf m m.mem_all) (by simp [h])
  | some n =>
    have hn : c.opc n = opcodeOf w := by simpa using List.find?_some hf
    rw [c.opc_injective hc (hn.trans h)]

/-- R85: the mnemonic decoded has the Word's low bits as its code. -/
theorem code_of_decodeOpcode {c : Config} {w : Word} {m : Mnemonic} (h : decodeOpcode c w = some m) :
    c.opc m = opcodeOf w := by
  simpa using List.find?_some h

@[simp] theorem opcodeOf_encodeOpcode (c : Config) (m : Mnemonic) : opcodeOf (encodeOpcode c m) = c.opc m := by
  rw [opcodeOf_eq, encodeOpcode]
  exact BitVec.setWidth_setWidth_of_le _ (by decide)

theorem decodeOpcode_encodeOpcode {c : Config} (hc : c.wf = true) (m : Mnemonic) :
    decodeOpcode c (encodeOpcode c m) = some m :=
  decodeOpcode_of_code hc (opcodeOf_encodeOpcode c m)

end Sys2Proof
end

