-- ==== Sys2Proof/Laws/State.lean ====
section
/-! SUPPORT. One lemma per field per update of the state, so that no later proof unfolds a record update. -/

namespace Sys2Proof.Machine

variable (s : State) (i j : Nat) (v : Word)

@[simp] theorem State.setCell_pc : (s.setCell i v).pc = s.pc := rfl
@[simp] theorem State.setCell_sp : (s.setCell i v).sp = s.sp := rfl
@[simp] theorem State.setCell_flag : (s.setCell i v).flag = s.flag := rfl
@[simp] theorem State.setCell_out : (s.setCell i v).out = s.out := rfl
@[simp] theorem State.setCell_mem : (s.setCell i v).mem = s.mem.write i v := rfl

@[simp] theorem State.setPc_pc : (s.setPc v).pc = v := rfl
@[simp] theorem State.setPc_sp : (s.setPc v).sp = s.sp := rfl
@[simp] theorem State.setPc_flag : (s.setPc v).flag = s.flag := rfl
@[simp] theorem State.setPc_out : (s.setPc v).out = s.out := rfl
@[simp] theorem State.setPc_mem : (s.setPc v).mem = s.mem := rfl
@[simp] theorem State.setPc_cell : (s.setPc v).cell i = s.cell i := rfl

@[simp] theorem State.advance_pc : s.advance.pc = s.pc + 1 := rfl
@[simp] theorem State.advance_sp : s.advance.sp = s.sp := rfl
@[simp] theorem State.advance_flag : s.advance.flag = s.flag := rfl
@[simp] theorem State.advance_out : s.advance.out = s.out := rfl
@[simp] theorem State.advance_mem : s.advance.mem = s.mem := rfl
@[simp] theorem State.advance_cell : s.advance.cell i = s.cell i := rfl

@[simp] theorem State.setSp_pc : (s.setSp v).pc = s.pc := rfl
@[simp] theorem State.setSp_sp : (s.setSp v).sp = v := rfl
@[simp] theorem State.setSp_flag : (s.setSp v).flag = s.flag := rfl
@[simp] theorem State.setSp_out : (s.setSp v).out = s.out := rfl
@[simp] theorem State.setSp_mem : (s.setSp v).mem = s.mem := rfl
@[simp] theorem State.setSp_cell : (s.setSp v).cell i = s.cell i := rfl

@[simp] theorem State.setFlag_pc : (s.setFlag v).pc = s.pc := rfl
@[simp] theorem State.setFlag_sp : (s.setFlag v).sp = s.sp := rfl
@[simp] theorem State.setFlag_flag : (s.setFlag v).flag = v := rfl
@[simp] theorem State.setFlag_out : (s.setFlag v).out = s.out := rfl
@[simp] theorem State.setFlag_mem : (s.setFlag v).mem = s.mem := rfl
@[simp] theorem State.setFlag_cell : (s.setFlag v).cell i = s.cell i := rfl

@[simp] theorem State.emit_pc : (s.emit v).pc = s.pc := rfl
@[simp] theorem State.emit_sp : (s.emit v).sp = s.sp := rfl
@[simp] theorem State.emit_flag : (s.emit v).flag = s.flag := rfl
@[simp] theorem State.emit_out : (s.emit v).out = s.out ++ [v] := rfl
@[simp] theorem State.emit_mem : (s.emit v).mem = s.mem := rfl
@[simp] theorem State.emit_cell : (s.emit v).cell i = s.cell i := rfl

/-! The three stack addresses depend on `sp` alone. -/

@[simp] theorem State.setSp_freeAddr : (s.setSp v).freeAddr = stackBase + v := rfl
@[simp] theorem State.setCell_freeAddr : (s.setCell i v).freeAddr = s.freeAddr := rfl
@[simp] theorem State.advance_freeAddr : s.advance.freeAddr = s.freeAddr := rfl
@[simp] theorem State.setPc_freeAddr : (s.setPc v).freeAddr = s.freeAddr := rfl

end Sys2Proof.Machine
end

