-- ==== Sys2Proof/Laws/Memory.lean ====
section
/-! SUPPORT. Reading after writing, and the canonical form of memory: every memory operation keeps it. -/

namespace Sys2Proof.Machine

theorem Memory.read_of_unlisted {m : Memory} {a : Nat} (h : ∀ p ∈ m, p.1 ≠ a) : m.read a = clearedCell := by
  induction m with
  | nil => rfl
  | cons p rest ih =>
    rw [Memory.read, if_neg (h p (by simp))]
    exact ih fun q hq => h q (by simp [hq])

theorem Memory.read_erase (m : Memory) (a b : Nat) :
    (m.erase a).read b = if b = a then clearedCell else m.read b := by
  split
  · subst b
    exact Memory.read_of_unlisted fun p hp => by simpa using (List.mem_filter.1 hp).2
  · rename_i hba
    induction m with
    | nil => rfl
    | cons p rest ih =>
      by_cases hp : p.1 = a
      · have : p.1 ≠ b := fun h => hba (h ▸ hp)
        simpa [Memory.erase, Memory.read, hp, Ne.symm hba] using ih
      · by_cases hb : p.1 = b
        · simp [Memory.erase, Memory.read, hb, hba]
        · simpa [Memory.erase, Memory.read, hp, hb] using ih

theorem Memory.read_insert {m : Memory} {a : Nat} (v : Word) (h : ∀ p ∈ m, p.1 ≠ a) (b : Nat) :
    (m.insert a v).read b = if b = a then v else m.read b := by
  induction m with
  | nil => simp [Memory.insert, Memory.read, eq_comm]
  | cons p rest ih =>
    have hp : p.1 ≠ a := h p (by simp)
    specialize ih fun q hq => h q (by simp [hq])
    simp only [Memory.insert]
    split
    · simp [Memory.read, eq_comm]
    · by_cases hb : p.1 = b
      · subst hb; simp [Memory.read, hp]
      · simp [Memory.read, hb, ih]

/-- R57: a read after a write gives the value written, and a write leaves every other cell alone; on any memory. -/
theorem Memory.read_write (m : Memory) (a b : Nat) (v : Word) :
    (m.write a v).read b = if b = a then v else m.read b := by
  unfold Memory.write
  split
  · rename_i hv; rw [hv, Memory.read_erase]
  · rw [Memory.read_insert v (fun p hp => by simpa using (List.mem_filter.1 hp).2), Memory.read_erase]
    split <;> rfl

@[simp] theorem State.cell_setCell (s : State) (a b : Nat) (v : Word) :
    (s.setCell a v).cell b = if b = a then v else s.cell b := Memory.read_write s.mem a b v

theorem Memory.wf_erase {m : Memory} (h : m.wf) (a : Nat) : (m.erase a).wf :=
  ⟨h.1.filter _, fun p hp => h.2 p (List.mem_filter.1 hp).1⟩

theorem Memory.mem_insert {m : Memory} {a : Nat} {v : Word} {p : Nat × Word} :
    p ∈ m.insert a v ↔ p = (a, v) ∨ p ∈ m := by
  induction m with
  | nil => simp [Memory.insert]
  | cons q rest ih =>
    simp only [Memory.insert]
    split
    · simp
    · simp only [List.mem_cons, ih]; tauto

theorem Memory.pairwise_insert {m : Memory} {a : Nat} {v : Word} (h : m.Pairwise fun p q => p.1 < q.1)
    (ha : ∀ p ∈ m, p.1 ≠ a) : (m.insert a v).Pairwise fun p q => p.1 < q.1 := by
  induction m with
  | nil => simp [Memory.insert]
  | cons p rest ih =>
    obtain ⟨hp, hrest⟩ := List.pairwise_cons.1 h
    have hpa : p.1 ≠ a := ha p (by simp)
    simp only [Memory.insert]
    split
    · rename_i hlt
      refine List.pairwise_cons.2 ⟨fun q hq => ?_, h⟩
      rcases List.mem_cons.1 hq with rfl | hq
      · exact hlt
      · exact hlt.trans (hp q hq)
    · refine List.pairwise_cons.2 ⟨fun q hq => ?_, ih hrest fun q hq => ha q (by simp [hq])⟩
      rcases Memory.mem_insert.1 hq with rfl | hq
      · show p.1 < a; omega
      · exact hp q hq

/-- A write to a cell of the array keeps the canonical form. -/
theorem Memory.wf_write {m : Memory} (h : m.wf) {a : Nat} (ha : a < memSize) (v : Word) : (m.write a v).wf := by
  unfold Memory.write
  split
  · exact Memory.wf_erase h a
  · rename_i hv
    have he := Memory.wf_erase h a
    refine ⟨Memory.pairwise_insert he.1 fun p hp => by simpa using (List.mem_filter.1 hp).2, fun p hp => ?_⟩
    rcases Memory.mem_insert.1 hp with rfl | hp
    · exact ⟨ha, hv⟩
    · exact he.2 p hp

/-- The memory of the state after reset has the canonical form. -/
theorem Memory.wf_nil : Memory.wf [] := ⟨List.Pairwise.nil, fun _ h => nomatch h⟩

end Sys2Proof.Machine
end

