-- ==== Sys2Proof/Laws/Load.lean ====
section
/-! SUPPORT. What `load`'s operations do, said once: placing Words in memory, and when a load is refused. -/

namespace Sys2Proof

theorem ArrayLit.fits_iff (a : ArrayLit) : a.fits = true ↔ a.start.toNat + a.values.length ≤ 1024 := decide_eq_true_iff

theorem LoadImage.streamFits_iff (img : LoadImage) : img.streamFits = true ↔ img.instructions.length ≤ 1024 :=
  decide_eq_true_iff

theorem LoadImage.wf_iff (img : LoadImage) :
    img.wf = true ↔ img.instructions.length ≤ 1024 ∧ ∀ r ∈ img.arrays, r.start.toNat + r.values.length ≤ 1024 := by
  simp only [LoadImage.wf, Bool.and_eq_true, List.all_eq_true, LoadImage.streamFits_iff, ArrayLit.fits_iff]

namespace Machine

/-- Placing Words keeps the canonical form. -/
theorem Memory.wf_place {m : Memory} (h : m.wf) (a : Word) (ws : List Word) : (m.place a ws).wf := by
  induction ws generalizing m a with
  | nil => exact h
  | cons w rest ih => exact ih (Memory.wf_write h (Nat.mod_lt _ (by decide)) w) _

/-- Placing arrays keeps the canonical form. -/
theorem Memory.wf_placeArrays {m : Memory} (h : m.wf) (arrays : List ArrayLit) : (m.placeArrays arrays).wf := by
  induction arrays generalizing m with
  | nil => exact h
  | cons r rest ih => exact ih (Memory.wf_place h _ _)

/-- R210: Words placed within the memory stand in consecutive cells from `a`; every other cell is as before. -/
theorem Memory.read_place (m : Memory) (a : Word) (ws : List Word) (h : a.toNat + ws.length ≤ 1024) (b : Nat) :
    (m.place a ws).read b =
      if a.toNat ≤ b ∧ b < a.toNat + ws.length then ws.getD (b - a.toNat) 0 else m.read b := by
  induction ws generalizing m a with
  | nil => rw [if_neg (by simp only [List.length_nil]; omega)]; rfl
  | cons w rest ih =>
    simp only [List.length_cons] at h ⊢
    have ha : (add32 a 1).toNat = a.toNat + 1 := by simp [add32, BitVec.toNat_add]; omega
    have hi : cellIndex a = a.toNat := Nat.mod_eq_of_lt (by simp only [memSize]; omega)
    rw [Memory.place, ih _ _ (by omega), ha, Memory.read_write, hi]
    by_cases h1 : b = a.toNat
    · subst h1
      rw [if_neg (by omega), if_pos rfl, if_pos (by omega)]
      simp
    · by_cases h2 : a.toNat + 1 ≤ b ∧ b < a.toNat + 1 + rest.length
      · rw [if_pos h2, if_pos (by omega), show b - a.toNat = (b - (a.toNat + 1)) + 1 by omega, List.getD_cons_succ]
      · rw [if_neg h2, if_neg h1, if_neg (by omega)]

/-- R212: what `load` answers for an image that fits. -/
theorem load_of_wf {img : LoadImage} (h : img.wf = true) : load img = .ok (loadedState img) := by
  rw [LoadImage.wf_iff] at h
  have hn : img.arrays.find? (fun a => !a.fits) = none := by
    rw [List.find?_eq_none]
    intro r hr
    simp [(r.fits_iff).2 (h.2 r hr)]
  rw [load, if_pos ((img.streamFits_iff).2 h.1), hn]

/-- R212: the only state a load answers is the loaded one. -/
theorem load_ok {img : LoadImage} {s : State} (h : load img = .ok s) : s = loadedState img := by
  unfold load at h
  split at h
  · split at h
    · cases h
    · cases h; rfl
  · cases h

end Machine

end Sys2Proof
end

