-- ==== Sys2Proof/Laws/Ops.lean ====
section
/-! SUPPORT. What each shared operation can do, said once. `_ok` lemmas hold for every configuration: if the operation
answers, this is its answer. `_wrap` lemmas say that under `ADDR_POLICY = wrap` it always answers,
`_refuse` lemmas when it answers under `refuse`. -/

namespace Sys2Proof.Machine

variable {c : Config} {s t : State} {a v : Word}

theorem cellIndex_lt (a : Word) : cellIndex a < memSize := Nat.mod_lt _ (by decide)

/-- R53: under `wrap` the effective cell of an access. -/
theorem ea_wrap (hc : c.addrPolicy = .wrap) (a : Word) : ea c a = .ok (cellIndex a) := by simp [ea, hc]

/-- R53: under either policy, an access that has a meaning is an access to `a mod 1024`. -/
theorem ea_ok {i : Nat} (h : ea c a = .ok i) : i = cellIndex a := by
  unfold ea at h
  split at h
  · cases h; rfl
  · split at h
    · rename_i hlt; cases h; exact (Nat.mod_eq_of_lt hlt).symm
    · cases h

/-- R53: under `refuse` an access names its own cell, or has no meaning. -/
theorem ea_refuse (hc : c.addrPolicy = .refuse) (a : Word) :
    ea c a = if a.toNat < memSize then .ok (cellIndex a) else .error (.addressBeyondMemory a) := by
  simp only [ea, hc]
  split
  · rename_i h; rw [cellIndex, Nat.mod_eq_of_lt h]
  · rfl

theorem memRead_refuse (hc : c.addrPolicy = .refuse) (s : State) (a : Word) :
    s.memRead c a = if a.toNat < memSize then .ok (s.cell (cellIndex a)) else .error (.addressBeyondMemory a) := by
  rw [State.memRead, ea_refuse hc]; split <;> rfl

theorem memWrite_refuse (hc : c.addrPolicy = .refuse) (s : State) (a v : Word) :
    s.memWrite c a v = if a.toNat < memSize then .ok (s.setCell (cellIndex a) v) else .error (.addressBeyondMemory a) := by
  rw [State.memWrite, ea_refuse hc]; split <;> rfl

theorem memRead_wrap (hc : c.addrPolicy = .wrap) (s : State) (a : Word) : s.memRead c a = .ok (s.cell (cellIndex a)) := by
  simp [State.memRead, ea_wrap hc]

theorem memRead_ok (h : s.memRead c a = .ok v) : v = s.cell (cellIndex a) := by
  unfold State.memRead at h
  cases he : ea c a with
  | error e => rw [he] at h; cases h
  | ok i => rw [he] at h; cases h; rw [ea_ok he]

theorem memWrite_wrap (hc : c.addrPolicy = .wrap) (s : State) (a v : Word) :
    s.memWrite c a v = .ok (s.setCell (cellIndex a) v) := by
  simp [State.memWrite, ea_wrap hc]

theorem memWrite_ok (h : s.memWrite c a v = .ok t) : t = s.setCell (cellIndex a) v := by
  unfold State.memWrite at h
  cases he : ea c a with
  | error e => rw [he] at h; cases h
  | ok i => rw [he] at h; cases h; rw [ea_ok he]

/-- The state after `Push(v)`. -/
def pushed (s : State) (v : Word) : State := (s.setCell (cellIndex s.freeAddr) v).setSp (s.sp + 1)

/-- The state after `Pop()`. -/
def popped (s : State) : State := s.setSp (s.sp - 1)

theorem push_wrap (hc : c.addrPolicy = .wrap) (s : State) (v : Word) : s.push c v = .ok (pushed s v) := by
  simp [State.push, memWrite_wrap hc]; rfl

theorem push_ok (h : s.push c v = .ok t) : t = pushed s v := by
  unfold State.push at h
  cases hw : s.memWrite c s.freeAddr v with
  | error e => rw [hw] at h; cases h
  | ok u => rw [hw] at h; cases h; rw [memWrite_ok hw]; rfl

/-- R25: what a pop reads is the top. -/
theorem popped_freeAddr (s : State) : (popped s).freeAddr = s.topAddr := by
  show (72 : BitVec 32) + (s.sp - 1) = 72 + s.sp - 1
  bv_omega

/-- R56: what the second pop reads is the entry below the top. -/
theorem popped_topAddr (s : State) : (popped s).topAddr = s.secondAddr := by
  show (72 : BitVec 32) + (s.sp - 1) - 1 = 72 + s.sp - 2
  bv_omega

theorem pop_wrap (hc : c.addrPolicy = .wrap) (s : State) : s.pop c = .ok (s.cell (cellIndex s.topAddr), popped s) := by
  have := memRead_wrap hc (popped s) (popped s).freeAddr
  rw [popped_freeAddr] at this
  show ((popped s).memRead c (popped s).freeAddr >>= fun v => pure (v, popped s)) = _
  rw [popped_freeAddr, this]; rfl

theorem pop_ok {r : Word × State} (h : s.pop c = .ok r) : r = (s.cell (cellIndex s.topAddr), popped s) := by
  replace h : ((popped s).memRead c (popped s).freeAddr >>= fun v => pure (v, popped s)) = Except.ok r := h
  rw [popped_freeAddr] at h
  cases hr : (popped s).memRead c s.topAddr with
  | error e => rw [hr] at h; cases h
  | ok v => rw [hr] at h; cases h; rw [memRead_ok hr]; rfl

theorem popTwo_wrap (hc : c.addrPolicy = .wrap) (s : State) :
    s.popTwo c = .ok ((s.cell (cellIndex s.topAddr), s.cell (cellIndex s.secondAddr)), popped (popped s)) := by
  simp only [State.popTwo, pop_wrap hc, bind, Except.bind, pure, Except.pure, popped_topAddr]
  rfl

theorem updateTop_wrap (hc : c.addrPolicy = .wrap) (s : State) (f : Word → Word) :
    s.updateTop c f = .ok (s.setCell (cellIndex s.topAddr) (f (s.cell (cellIndex s.topAddr)))) := by
  simp only [State.updateTop, memRead_wrap hc, bind, Except.bind, memWrite_wrap hc]

/-- R150 to R153: the target is popped whether or not the jump is taken. -/
theorem jumpIf_wrap (hc : c.addrPolicy = .wrap) (s : State) (taken : Bool) :
    s.jumpIf c taken =
      .ok ((popped s).setPc (if taken then s.cell (cellIndex s.topAddr) else s.pc + 1)) := by
  cases taken <;> simp only [State.jumpIf, pop_wrap hc, bind, Except.bind] <;> rfl

@[simp] theorem pushed_pc : (pushed s v).pc = s.pc := rfl
@[simp] theorem pushed_sp : (pushed s v).sp = s.sp + 1 := rfl
@[simp] theorem pushed_flag : (pushed s v).flag = s.flag := rfl
@[simp] theorem pushed_out : (pushed s v).out = s.out := rfl
@[simp] theorem pushed_mem : (pushed s v).mem = s.mem.write (cellIndex s.freeAddr) v := rfl
@[simp] theorem popped_pc : (popped s).pc = s.pc := rfl
@[simp] theorem popped_sp : (popped s).sp = s.sp - 1 := rfl
@[simp] theorem popped_flag : (popped s).flag = s.flag := rfl
@[simp] theorem popped_out : (popped s).out = s.out := rfl
@[simp] theorem popped_mem : (popped s).mem = s.mem := rfl
@[simp] theorem popped_cell (i : Nat) : (popped s).cell i = s.cell i := rfl

end Sys2Proof.Machine
end

