-- ==== Sys2Proof/Laws/PerInstr.lean ====
section
/-! SUPPORT. Statements made of each instruction as it is written, one lemma per constructor. -/

namespace Sys2Proof.Laws

/-- R82, R108: an instruction's encoding is as many cells as its length says, and its first cell is the code of its mnemonic
with bits 31:4 zero. -/
def EncodingShape.Statement (i : Instr) : Prop :=
  ∀ c : Config, (encode c i).length = i.mnemonic.cells ∧ (encode c i).head? = some (encodeOpcode c i.mnemonic)

theorem EncodingShape.push (imm : Word) : EncodingShape.Statement (.push imm) := fun _ => ⟨rfl, rfl⟩
theorem EncodingShape.read : EncodingShape.Statement .read := fun _ => ⟨rfl, rfl⟩
theorem EncodingShape.write : EncodingShape.Statement .write := fun _ => ⟨rfl, rfl⟩
theorem EncodingShape.dup : EncodingShape.Statement .dup := fun _ => ⟨rfl, rfl⟩
theorem EncodingShape.drop : EncodingShape.Statement .drop := fun _ => ⟨rfl, rfl⟩
theorem EncodingShape.jmp : EncodingShape.Statement .jmp := fun _ => ⟨rfl, rfl⟩
theorem EncodingShape.out : EncodingShape.Statement .out := fun _ => ⟨rfl, rfl⟩
theorem EncodingShape.cmp : EncodingShape.Statement .cmp := fun _ => ⟨rfl, rfl⟩
theorem EncodingShape.inc : EncodingShape.Statement .inc := fun _ => ⟨rfl, rfl⟩
theorem EncodingShape.dec : EncodingShape.Statement .dec := fun _ => ⟨rfl, rfl⟩
theorem EncodingShape.je : EncodingShape.Statement .je := fun _ => ⟨rfl, rfl⟩
theorem EncodingShape.jg : EncodingShape.Statement .jg := fun _ => ⟨rfl, rfl⟩
theorem EncodingShape.add : EncodingShape.Statement .add := fun _ => ⟨rfl, rfl⟩
theorem EncodingShape.jl : EncodingShape.Statement .jl := fun _ => ⟨rfl, rfl⟩
theorem EncodingShape.hlt : EncodingShape.Statement .hlt := fun _ => ⟨rfl, rfl⟩

end Sys2Proof.Laws
end

