-- ==== Sys2Proof/Laws/Step.lean ====
section
/-! SUPPORT. What a fetch and a step can do, said once. -/

namespace Sys2Proof.Machine

variable {c : Config} {s t : State}

theorem defaultOpc_wf : params.wf = true := by decide

/-- R81 to R83: under `wrap` the fetched cells are the instruction word and, for PUSH, the operand cell. -/
theorem fetchCells_wrap (hc : c.addrPolicy = .wrap) (s : State) :
    s.fetchCells c = .ok (s.cell (cellIndex s.pc),
      if decodeOpcode c (s.cell (cellIndex s.pc)) = some .push then [s.cell (cellIndex (add32 s.pc 1))] else []) := by
  simp only [State.fetchCells, memRead_wrap hc, bind, Except.bind]
  split
  · rename_i h; rw [if_pos h]; rfl
  · rename_i h; rw [if_neg (fun h' => h h')]; rfl

/-- R87: the decode of a fetched Word whose code is PUSH. -/
theorem decode_push {w v : Word} {rest : List Word} (h : decodeOpcode c w = some .push) :
    decode c (w :: v :: rest) = .ok (.push v, rest) := by simp [decode, h]

/-- R87: the decode of a fetched Word whose code is a one-cell mnemonic. -/
theorem decode_plain {w : Word} {m : Mnemonic} (rest : List Word) (h : decodeOpcode c w = some m) (hm : m ≠ .push) :
    decode c (w :: rest) = .ok (instrOf m 0, rest) := by
  unfold decode
  simp only [h]

/-- R87: under `wrap` a fetch answers the instruction of the mnemonic whose code the Word at `pc` holds. -/
theorem fetch_of_opcode (hc : c.addrPolicy = .wrap) {m : Mnemonic}
    (h : decodeOpcode c (s.cell (cellIndex s.pc)) = some m) :
    fetch c s = .next (instrOf m (s.cell (cellIndex (add32 s.pc 1)))) := by
  unfold fetch
  rw [fetchCells_wrap hc]
  by_cases hm : m = .push
  · subst hm
    simp [h, decode_push h, instrOf]
  · have : some m ≠ some Mnemonic.push := fun e => hm (Option.some.inj e)
    simp only [h, if_neg this, decode_plain [] h hm]
    cases m <;> first | rfl | exact absurd rfl hm

/-- R88: under `wrap` a fetch raises `InvalidOpcode` where no mnemonic has the code. -/
theorem fetch_of_no_opcode (hc : c.addrPolicy = .wrap) (h : decodeOpcode c (s.cell (cellIndex s.pc)) = none) :
    fetch c s = .fault (.invalidOpcode s.pc (s.cell (cellIndex s.pc))) := by
  simp [fetch, fetchCells_wrap hc, h, decode, raiseInvalidOpcode]

/-- R87: a step of a running machine whose Word at `pc` has the code of `m`. -/
theorem step_of_opcode {m : Mnemonic} (hr : s.isRunning = true)
    (h : opcodeOf (s.cell (cellIndex s.pc)) = params.opc m) :
    step s = exec (instrOf m (s.cell (cellIndex (add32 s.pc 1)))) s := by
  simp only [step, cycle, hr, if_true, fetch_of_opcode (c := params) rfl (decodeOpcode_of_code defaultOpc_wf h)]

/-- R188: a step of a halted machine, under any configuration and with any meanings. -/
theorem cycle_halted (c : Config) (run : Instr → State → StepOutcome) (h : s.isRunning = false) :
    cycle c run s = .fault .halted := by simp [cycle, h, raiseHalted]

/-- R87: what can make a step of the cycle answer a next state. -/
theorem cycle_next {run : Instr → State → StepOutcome} (h : cycle c run s = .next t) :
    s.isRunning = true ∧ ∃ i, fetch c s = .next i ∧ run i s = .next t := by
  unfold cycle at h
  split at h
  · rename_i hr
    refine ⟨hr, ?_⟩
    cases hf : fetch c s with
    | next i => rw [hf] at h; exact ⟨i, rfl, h⟩
    | fault f => rw [hf] at h; cases h
    | refused r => rw [hf] at h; cases h
  · cases h

end Sys2Proof.Machine
end

