-- ==== Sys2Proof/Tests/Slice0.lean ====
section
/-! SUPPORT. Tests: the checks refuse ill-formed data, words written out from the encoding decode, one-step vectors of
spec/95_test_vectors.md, and a witness for the hypotheses of each statement that has some. -/

namespace Sys2Proof.Tests

open Sys2Proof.Machine Sys2Proof.Safety

/-- A state with the given registers and cells, every other cell 0 and the log empty. -/
def mk (pc sp flag : Word) (cells : List (Nat × Word)) : State :=
  { mem := cells.foldl (fun m p => m.write p.1 p.2) [], pc := pc, sp := sp, flag := flag, out := [] }

/-- The step answers a next state with these registers, these cells and this log. -/
def stepsTo (s : State) (pc sp flag : Word) (cells : List (Nat × Word)) (out : List Word) : Bool :=
  match step s with
  | .next t => t.pc == pc && t.sp == sp && t.flag == flag && t.out == out && cells.all fun p => t.cell p.1 == p.2
  | .fault _ | .refused _ => false

/-- The step stops with this fault. -/
def faults (s : State) (f : Fault) : Bool :=
  match step s with
  | .fault g => g == f
  | .next _ | .refused _ => false

/-! ## The checks refuse ill-formed data -/

/-- Two mnemonics with one code: no `OPC` (R85). -/
theorem test_wf_config_refuses_clash :
    Config.wf { params with opc := fun m => if m = .hlt then 0 else defaultOpc m } = false := by decide

/-- V64: an array past address 1023. -/
theorem test_wf_array_refused : ArrayLit.fits { name := ['a'], start := 1023, values := [1, 2] } = false := by decide

/-- V64: 1025 instruction Words. -/
theorem test_wf_stream_refused : LoadImage.streamFits { instructions := List.replicate 1025 0, arrays := [] } = false :=
  decide_eq_false (by rw [List.length_replicate]; decide)

/-- A memory with an entry that holds the cleared value, or out of order, is not in canonical form. -/
theorem test_wf_memory_refused : ¬ Memory.wf [(3, 0)] ∧ ¬ Memory.wf [(4, 1), (3, 1)] ∧ ¬ Memory.wf [(1024, 1)] := by decide

/-- R6: the values of the named constants. -/
theorem test_constants : wordBits = 32 ∧ opcodeBits = 4 ∧ memSize = 1024 ∧ stackBase = 72 ∧ stackEnd = 87 ∧ stackCells = 16 ∧
    arrayBase = 88 ∧ arrayGap = 3 ∧ entry = 0 ∧ flagReset = 1 := by decide

/-! ## Words written out from the encoding (R80, R85 at the default `OPC`): bits 3:0 the code, bits 31:4 ignored -/

theorem test_decode_push : decode params [0b1010_1011_1100_1101_1110_1111_0000_0000, 7, 9] = .ok (.push 7, [9]) := by decide
theorem test_decode_read : decode params [0b0000_0000_0000_0000_0000_0000_0000_0001] = .ok (.read, []) := by decide
theorem test_decode_write : decode params [0b0000_0000_0000_0000_0000_0000_0001_0010] = .ok (.write, []) := by decide
theorem test_decode_dup : decode params [0b0000_0000_0000_0000_0000_0000_0000_0011] = .ok (.dup, []) := by decide
theorem test_decode_drop : decode params [0b1000_0000_0000_0000_0000_0000_0000_0100] = .ok (.drop, []) := by decide
theorem test_decode_jmp : decode params [0b0000_0000_0000_0000_0000_0000_0000_0101] = .ok (.jmp, []) := by decide
theorem test_decode_out : decode params [0b1111_1111_1111_1111_1111_1111_1111_0110] = .ok (.out, []) := by decide
theorem test_decode_cmp : decode params [0b0000_0000_0000_0000_0000_0000_0000_0111] = .ok (.cmp, []) := by decide
theorem test_decode_inc : decode params [0b0000_0000_0000_0000_0000_0000_0000_1000] = .ok (.inc, []) := by decide
theorem test_decode_dec : decode params [0b0000_0000_0000_0000_0000_0000_0000_1001] = .ok (.dec, []) := by decide
theorem test_decode_je : decode params [0b0000_0000_0000_0000_0000_0000_0000_1010] = .ok (.je, []) := by decide
theorem test_decode_jg : decode params [0b0000_0000_0000_0000_0000_0000_0000_1011] = .ok (.jg, []) := by decide
theorem test_decode_add : decode params [0b0000_0000_0000_0000_0000_0000_0000_1100] = .ok (.add, []) := by decide
theorem test_decode_jl : decode params [0b0000_0000_0000_0000_0000_0000_0000_1101] = .ok (.jl, []) := by decide
theorem test_decode_hlt : decode params [0b0000_0000_0000_0000_0000_0000_0001_1110] = .ok (.hlt, []) := by decide
theorem test_decode_unassigned : decode params [0xFFFFFFFF] = .error (.invalidOpcode 0xFFFFFFFF) := by decide

/-- S1: the source's example of `extractBits`, and V vectors derived from R8. -/
theorem test_extractBits : extractBits 0b1011 0 3 = 0b1011 ∧ extractBits 11 2 2 = 0 ∧ extractBits 0xFFFFFFF6 0 3 = 6 ∧
    extractBits 0x80000000 31 31 = 1 := by decide

/-! ## One-step vectors of spec/95_test_vectors.md, part 2 -/

/-- V3: the 17th entry overwrites cell 88. -/
theorem test_push_V3 : stepsTo (mk 0 16 1 [(0, 0), (1, 116), (88, 500)]) 2 17 1 [(88, 116)] [] = true := by decide
/-- V5: the operand of a PUSH at 1023 is cell 0; `pc` is not reduced. -/
theorem test_push_V5 : stepsTo (mk 1023 0 1 [(1023, 0), (0, 0x50)]) 1025 1 1 [(72, 80)] [] = true := by decide
/-- V9: an empty stack: the "top" is cell 71. -/
theorem test_dup_V9 : stepsTo (mk 4 0 1 [(4, 3), (71, 14)]) 5 1 1 [(72, 14)] [] = true := by decide
/-- V10: after one pop too many. -/
theorem test_dup_V10 : stepsTo (mk 4 0xFFFFFFFF 1 [(4, 3), (70, 6)]) 5 0 1 [(71, 6)] [] = true := by decide
/-- V11: the dropped cell is not cleared. -/
theorem test_drop_V11 : stepsTo (mk 9 2 1 [(9, 4), (72, 5), (73, 6)]) 10 1 1 [(72, 5), (73, 6)] [] = true := by decide
/-- V59: `pc` wraps modulo 2^32. -/
theorem test_drop_V59 : stepsTo (mk 0xFFFFFFFF 1 1 [(1023, 4)]) 0 0 1 [] [] = true := by decide
/-- V15: address 1112 is cell 88. -/
theorem test_read_V15 : stepsTo (mk 4 1 1 [(4, 1), (72, 1112), (88, 10)]) 5 1 1 [(72, 10)] [] = true := by decide
/-- V17: an empty stack. -/
theorem test_read_V17 : stepsTo (mk 5 0 1 [(5, 1), (71, 88), (88, 10)]) 6 0 1 [(71, 10)] [] = true := by decide
/-- V19: a store into the instruction area. -/
theorem test_write_V19 : stepsTo (mk 4 2 1 [(4, 2), (72, 14), (73, 7), (7, 6)]) 5 0 1 [(7, 14)] [] = true := by decide
/-- V21: one entry only. -/
theorem test_write_V21 : stepsTo (mk 4 1 1 [(4, 2), (72, 200), (71, 33)]) 5 0xFFFFFFFF 1 [(200, 33)] [] = true := by decide
/-- V24: a target above the memory stays whole in `pc`. -/
theorem test_jmp_V24 : stepsTo (mk 40 1 1 [(40, 5), (72, 5000)]) 5000 0 1 [] [] = true := by decide
/-- V25 and V28: JE with no comparison bit, and with bit 1. -/
theorem test_je_V25_V28 : stepsTo (mk 20 1 1 [(20, 10), (72, 50)]) 50 0 1 [] [] = true ∧
    stepsTo (mk 20 1 3 [(20, 10), (72, 50)]) 21 0 3 [] [] = true := by decide
/-- V29 and V32: JG with bit 1, and with bit 2. -/
theorem test_jg_V29_V32 : stepsTo (mk 20 1 3 [(20, 11), (72, 50)]) 50 0 3 [] [] = true ∧
    stepsTo (mk 20 1 5 [(20, 11), (72, 50)]) 21 0 5 [] [] = true := by decide
/-- V33 and V30: JL with bit 2, and with bit 1. -/
theorem test_jl_V33_V30 : stepsTo (mk 20 1 5 [(20, 13), (72, 50)]) 50 0 5 [] [] = true ∧
    stepsTo (mk 20 1 3 [(20, 13), (72, 50)]) 21 0 3 [] [] = true := by decide
/-- V37: the comparison is unsigned. -/
theorem test_cmp_V37 : stepsTo (mk 4 2 1 [(4, 7), (72, 0xFFFFFFFF), (73, 1)]) 5 0 5 [(72, 0xFFFFFFFF), (73, 1)] [] = true := by
  decide
/-- V37a: one entry only. -/
theorem test_cmp_V37a : stepsTo (mk 4 1 1 [(4, 7), (72, 9), (71, 2)]) 5 0xFFFFFFFF 3 [] [] = true := by decide
/-- V38: INC wraps. -/
theorem test_inc_V38 : stepsTo (mk 4 1 1 [(4, 8), (72, 0xFFFFFFFF)]) 5 1 1 [(72, 0)] [] = true := by decide
/-- V41: DEC wraps (the source's example S9). -/
theorem test_dec_V41 : stepsTo (mk 4 1 1 [(4, 9), (72, 0)]) 5 1 1 [(72, 0xFFFFFFFF)] [] = true := by decide
/-- V45: ADD wraps. -/
theorem test_add_V45 : stepsTo (mk 4 2 1 [(4, 12), (72, 0xFFFFFFFF), (73, 0xFFFFFFFF)]) 5 1 1 [(72, 0xFFFFFFFE)] [] = true := by
  decide
/-- V48: one entry only; the sum goes to cell 71. -/
theorem test_add_V48 : stepsTo (mk 4 1 1 [(4, 12), (72, 4), (71, 6)]) 5 0 1 [(71, 10), (72, 4)] [] = true := by decide
/-- V51: bits 31:4 of the instruction word are ignored. -/
theorem test_out_V51 : stepsTo (mk 9 1 1 [(9, 0xFFFFFFF6), (72, 42)]) 10 0 1 [] [42] = true := by decide
/-- V52: HLT clears all of `flag` and stays. -/
theorem test_hlt_V52 : stepsTo (mk 55 0 3 [(55, 14)]) 55 0 0 [] [] = true := by decide
/-- V55: the whole fetched Word is reported. -/
theorem test_invalid_V55 : faults (mk 9 0 1 [(9, 0xFFFFFFFF)]) (.invalidOpcode 9 0xFFFFFFFF) = true := by decide
/-- V58: the running bit is tested before the fetch. -/
theorem test_halted_V58 : faults (mk 9 0 0 [(9, 15)]) .halted = true := by decide
/-- R90: after a load of nothing, cell 0 decodes as PUSH 0. -/
theorem test_reset_step : stepsTo State.reset 2 1 1 [(72, 0)] [] = true := by decide

/-! ## Load, rendering and the assembler -/

/-- V62: instructions win over an array. -/
theorem test_load_V62 : (load { instructions := [0, 5, 14], arrays := [⟨['x'], 1, [9, 9, 9]⟩] }).toOption.map
    (fun s => [s.cell 0, s.cell 1, s.cell 2, s.cell 3]) = some [0, 5, 14, 9] := by decide
/-- V63: the later array wins. -/
theorem test_load_V63 : (load { instructions := [], arrays := [⟨['a'], 88, [1, 2, 3]⟩, ⟨['b'], 89, [7]⟩] }).toOption.map
    (fun s => [s.cell 88, s.cell 89, s.cell 90]) = some [1, 7, 3] := by decide
/-- R34: "4294967295", never "-1"; "0" for 0. -/
theorem test_render : renderWord 0xFFFFFFFF = "4294967295".toList ∧ renderWord 0 = ['0'] := by decide
/-- A5: a forward reference; pass 1 counts the JMP line as 3. -/
theorem test_asm_A5 : assemble params ["JMP end", "HLT", "end:", "PUSH 9", "OUT", "HLT"] =
    .ok { instructions := [0, 4, 5, 14, 0, 9, 6, 14], arrays := [] } := by decide
/-- A6: the same with the repository's reported defect. -/
theorem test_asm_A6 : assemble { params with asmJmpExtra := false } ["JMP end", "HLT", "end:", "PUSH 9", "OUT", "HLT"] =
    .ok { instructions := [0, 3, 5, 14, 0, 9, 6, 14], arrays := [] } := by decide
/-- A8: a bare array name is 88; `name+k` is not checked against the length. -/
theorem test_asm_A8 : assemble params ["a 1,2,3", "b 4,5", "PUSH b", "PUSH b+0", "PUSH b+2", "PUSH a+1"] =
    .ok { instructions := [0, 88, 0, 94, 0, 96, 0, 89], arrays := [⟨['a'], 88, [1, 2, 3]⟩, ⟨['b'], 94, [4, 5]⟩] } := by decide
/-- A9 and A10: the two named failures. -/
theorem test_asm_A9_A10 : assemble params ["JMP nowhere", "HLT"] = .error (.undefinedLabel "nowhere".toList) ∧
    assemble params ["a 1,2", "PUSH a+x"] = .error (.undefinedIncrease "a+x".toList) := by decide
/-- A11: the worked example of R118. -/
theorem test_asm_A11 : (assemble params ["// is 5 greater than 3?", "PUSH 3", "PUSH 5", "CMP", "JG big", "PUSH 0", "OUT", "HLT",
    "big:", "PUSH 1", "OUT", "HLT"]).toOption.map (·.instructions) =
    some [0, 3, 0, 5, 7, 0, 12, 11, 0, 0, 6, 14, 0, 1, 6, 14] := by decide
/-- A12: two labels on one address. -/
theorem test_asm_A12 : (passOne params Symbols.initial [.instr (.plain .cmp), .label ['x'], .label ['y'],
    .instr (.plain .hlt)]).toOption.map (fun st => (st.labelAddr ['x'], st.labelAddr ['y'])) = some (some 1, some 1) := by decide
/-- R117: a one-element array, an undeclared array, a numeral out of range, a negative `k`, lower case. -/
theorem test_asm_rejects : assemble params ["name 5"] = .error (.rejected .unclassified) ∧
    assemble params ["PUSH name"] = .error (.rejected .undeclaredArray) ∧
    assemble params ["PUSH 4294967296"] = .error (.rejected .numeral) ∧
    assemble params ["a 1,2", "PUSH a+-1"] = .error (.rejected .negativeOffset) ∧
    assemble params ["push 1,2"] = .error (.rejected .letterCase) ∧
    assemble params ["x:", "x:"] = .error (.rejected .duplicateName) ∧
    assemble params ["PUSH"] = .error (.rejected .operandCount) := by decide

/-- Log 22: a token that is no decimal numeral names an array where one is declared so, and is rejected where none is. -/
theorem test_asm_numeral_like_name : (assemble params ["-1 1,2", "PUSH -1"]).toOption.map (·.instructions) = some [0, 88] ∧
    assemble params ["PUSH -1"] = .error (.rejected .undeclaredArray) ∧
    assemble params ["PUSH 0x10"] = .error (.rejected .undeclaredArray) := by decide
/-- Log 21: a label's address is emitted up to 2^32 - 1 and rejected above. -/
theorem test_asm_label_range : labelWord { Symbols.initial with labels := [(['x'], 4294967295)] } ['x'] = .ok 0xFFFFFFFF ∧
    labelWord { Symbols.initial with labels := [(['x'], 4294967296)] } ['x'] = .error (.rejected .addressRange) := by decide

/-! ## Witnesses for the hypotheses of the statements -/

/-- A state at the code of each mnemonic. -/
def stateAt (m : Mnemonic) : State := mk 4 2 1 [(4, BitVec.setWidth 32 (defaultOpc m)), (72, 3), (73, 5)]

/-- For the second halves of the statements about single instructions. -/
theorem witness_at_opcode (m : Mnemonic) : atOpcode m (stateAt m) := by cases m <;> decide

/-- For the clauses of the three conditional jumps: bits clear, bit 1, bit 2. -/
theorem witness_jump_clauses :
    ((mk 0 1 1 []).flag.getLsbD 1 = false ∧ (mk 0 1 1 []).flag.getLsbD 2 = false) ∧
    (mk 0 1 3 []).flag.getLsbD 1 = true ∧ (mk 0 1 5 []).flag.getLsbD 2 = true := by decide

/-- For the clauses of the CMP statement: top greater, second greater, equal, at the ends of the range. -/
theorem witness_cmp_clauses :
    let o (s : State) := ((s.cell (cellIndex s.topAddr)).toNat, (s.cell (cellIndex s.secondAddr)).toNat)
    o (mk 0 2 1 [(72, 0), (73, 1)]) = (1, 0) ∧ o (mk 0 2 1 [(72, 0xFFFFFFFF), (73, 0xFFFFFFFE)]) = (0xFFFFFFFE, 0xFFFFFFFF) ∧
    o (mk 0 2 1 []) = (0, 0) := by decide

/-- The default parameters with the other pairing. -/
def otherPairing : Config := { params with cmpPairing := .secondSetsBit1 }

/-- For SecondPairingExchangesCmpResults, with the three results of `exec` its clauses start from. -/
theorem witness_second_pairing : otherPairing.addrPolicy = .wrap ∧ otherPairing.cmpPairing = .secondSetsBit1 ∧
    stepsTo (mk 4 2 1 [(4, 7), (72, 3), (73, 5)]) 5 0 3 [] [] = true ∧
    stepsTo (mk 4 2 1 [(4, 7), (72, 5), (73, 3)]) 5 0 5 [] [] = true ∧
    stepsTo (mk 4 2 5 [(4, 7), (72, 7), (73, 7)]) 5 0 1 [] [] = true := by decide

/-- A step that executes nothing, for ProgramCounterMovesByTable. -/
theorem witness_not_executed : (hostStep (mk 9 0 1 [(9, 15)])).2 ≠ .executed := by decide

/-- A loaded state, for FlagWrittenOnlyByLoadCmpHlt. -/
theorem witness_loaded : load { instructions := [14], arrays := [] } = .ok (mk 0 0 1 [(0, 14)]) := by decide

/-- Two states that differ only in a cell READ does not touch, for ResultDependsOnlyOnTabledReads. -/
theorem witness_same_reads : let s := mk 4 1 1 [(72, 88), (88, 10)]; let s' := mk 4 1 1 [(72, 88), (88, 10), (500, 1)]
    s'.pc = s.pc ∧ s'.sp = s.sp ∧ s'.flag = s.flag ∧ s'.out = s.out ∧ ∀ a ∈ s.dataReads .read, s'.cell a = s.cell a := by
  decide

/-- For ConditionalJumpsFollowLastCmp: a later state with the flag that CMP of 3 and 5 leaves, and the relations' three cases. -/
theorem witness_after_cmp : stepsTo (mk 4 2 1 [(4, 7), (72, 3), (73, 5)]) 5 0 3 [] [] = true ∧ (mk 7 1 3 []).flag = 3 ∧
    (3 : Word).toNat < (5 : Word).toNat ∧ ¬ (5 : Word).toNat < (3 : Word).toNat ∧ (4 : Word) = 4 := by decide

/-- For StackOverflowAndUnderflowAreSilent: 16 entries, none, and the ends of the range of the last clause. -/
theorem witness_stack_bounds : (mk 0 16 1 []).sp = 16 ∧ (mk 0 0 1 []).sp = 0 ∧ (mk 0 15 1 []).sp.toNat < 16 ∧
    cellIndex (mk 0 0 1 []).freeAddr = 72 ∧ cellIndex (mk 0 15 1 []).freeAddr = 87 := by decide

/-- For the runs of LogOnlyGrowsByOut: of PUSH 7, OUT, HLT the second step executes OUT, and no later one does. -/
theorem witness_out_steps : outSteps 4 (mk 0 0 1 [(1, 7), (2, 6), (3, 14)]) = [1] := by decide

/-- For the two clauses of RefusePolicyOnlyRefusesWildAddresses: READ at 1023 and at 1024, PUSH whose operand cell is at 1024, and
a halted machine, which accesses nothing. -/
theorem witness_wild_addresses : firstWildAddr params (mk 4 1 1 [(4, 1), (72, 1023)]) = none ∧
    stepAddrs params (mk 4 1 1 [(4, 1), (72, 1023)]) = [4, 72, 1023, 72] ∧
    firstWildAddr params (mk 4 1 1 [(4, 1), (72, 1024)]) = some 1024 ∧
    firstWildAddr params (mk 1023 0 1 []) = some 1024 ∧ firstWildAddr params (mk 5000 0 0 []) = none := by decide

/-- For StepKeepsMemoryFormAndLegalFlag: a legal state whose step goes on. -/
theorem witness_invariant : (stateAt .add).mem.wf ∧ legalFlag (stateAt .add).flag ∧
    stepsTo (stateAt .add) 5 1 1 [(72, 8)] [] = true := by
  refine ⟨by decide, by decide, by decide⟩

/-- For CanonicalMemoriesEqualIfCellsAgree. -/
theorem witness_canonical : Memory.wf [(0, 1), (1023, 2)] ∧
    ∀ a < memSize, Memory.read [(0, 1), (1023, 2)] a = Memory.read [(0, 1), (1023, 2)] a := ⟨by decide, fun _ _ => rfl⟩

/-- For StepRunsDecodedInstruction. -/
theorem witness_decoded : let s := mk 4 1 1 [(4, 0xAB0), (5, 7)]
    s.isRunning = true ∧ decode params [s.cell (cellIndex s.pc), s.cell (cellIndex (add32 s.pc 1))] = .ok (.push 7, []) := by
  decide

/-- For InvalidOpcodeExactlyOnUnassignedCode and InvalidOpcodeRepeatsForever. -/
theorem witness_invalid : (mk 9 0 1 [(9, 31)]).isRunning = true ∧
    ((mk 9 0 1 [(9, 31)]).cell (cellIndex (mk 9 0 1 [(9, 31)]).pc)).toNat % 16 = 15 ∧
    step (mk 9 0 1 [(9, 31)]) = .fault (.invalidOpcode 9 31) := ⟨by decide, by decide, rfl⟩

/-- For HaltedExactlyIfRunningBitClear and the first half of HaltedMachineStaysHalted. -/
theorem witness_halted : (mk 9 0 0 [(9, 15)]).flag.getLsbD 0 = false ∧ (mk 9 0 0 [(9, 15)]).isRunning = false := by decide

/-- For the second half of HaltedMachineStaysHalted: the step that halts. -/
theorem witness_halting : ∃ t, step (mk 55 0 3 [(55, 14)]) = .next t ∧ t.isRunning = false := ⟨_, rfl, by decide⟩

/-- For NormalEndHaltsOnHltWordWithoutFault: PUSH 1, HLT ends with its second step. -/
theorem witness_normal_end : endsAfter 1 (mk 0 0 1 [(1, 1), (2, 14)]) := ⟨by decide, rfl⟩

/-- For StoreToNextInstructionIsExecuted: WRITE at 4 stores HLT's word to 5. -/
theorem witness_store_next : let s := mk 4 2 1 [(4, 2), (72, 14), (73, 5)]
    s.isRunning = true ∧ cellIndex (s.cell (cellIndex s.topAddr)) = cellIndex (add32 s.pc 1) ∧
    opcodeOf (s.cell (cellIndex s.secondAddr)) = params.opc .hlt := by decide

/-- Another injective numbering: every code one higher. -/
def shifted : Config := { params with opc := fun m => defaultOpc m + 1 }

/-- For OpcodeNumberingIsImmaterial: INC at cell 4, renumbered from 8 to 9. -/
theorem witness_renumbered : let s := mk 4 1 1 [(4, 8), (72, 5)]; let s' := mk 4 1 1 [(4, 9), (72, 5)]
    params.wf = true ∧ shifted.wf = true ∧ shifted.addrPolicy = .wrap ∧ params.cmpPairing = shifted.cmpPairing ∧
    sameButNumbering params shifted (fun a => a = 4) s s' ∧ cellIndex s.pc = 4 ∧ fetch params s = .next .inc ∧
    (∀ a ∈ s.dataReads .inc, ¬ a = 4) ∧ (∀ a, s.dataWrite .inc = some a → ¬ a = 4) ∧
    ∃ t, stepAt params s = .next t := by
  refine ⟨by decide, by decide, rfl, rfl, ⟨rfl, rfl, rfl, rfl, fun a ha => ?_, ?_⟩, by decide, rfl, by decide, ?_, _, rfl⟩
  · show Memory.read [(4, 9), (72, 5)] a = Memory.read [(4, 8), (72, 5)] a
    simp [Memory.read, Ne.symm ha]
  · rintro a rfl
    exact ⟨.inc, by decide, by decide⟩
  · rintro a h rfl
    exact absurd h (by decide)

/-- For PlacedInstructionIsExecutedNext, on a halted state at the top of memory. -/
theorem witness_placed : decodeTableWord 32 6 = some .out ∧
    stepsTo ((mk 1023 1 0 [(72, 9)]).withFetchWord 32 6) 1024 0 1 [] [9] = true := by decide

/-- For DecodeInvertsEncode and ExactlyOneCodeIsUnassigned. -/
theorem witness_numbering : params.wf = true ∧ shifted.wf = true := by decide

/-- For DecodedWordsAreEncodingButForIgnoredBits. -/
theorem witness_decodes : decode params [0xFFFFFFF0, 15, 3] = .ok (.push 15, [3]) := by decide

/-- For DecoderIgnoresUpperBits. -/
theorem witness_upper_bits : (0xFFFFFFF6 : Word).toNat % 16 = (6 : Word).toNat % 16 := by decide

/-- V60, for LoadBuildsImageInOrder, NothingPersistsAcrossLoad and ConventionalImageLeavesStackRegionClear. -/
theorem witness_image : LoadImage.wf { instructions := [14], arrays := [⟨['a'], 88, [1, 2]⟩] } = true ∧
    conventional { instructions := [14], arrays := [⟨['a'], 88, [1, 2]⟩] } = true ∧
    load { instructions := [14], arrays := [⟨['a'], 88, [1, 2]⟩] } = .ok (mk 0 0 1 [(0, 14), (88, 1), (89, 2)]) := by decide

/-- V64, for the two clauses of OversizedLoadIsRefused. -/
theorem witness_oversized : 1024 < (List.replicate 1025 (0 : Word)).length ∧
    1024 < (ArrayLit.mk ['a'] 1023 [1, 2]).start.toNat + (ArrayLit.mk ['a'] 1023 [1, 2]).values.length := by
  exact ⟨by rw [List.length_replicate]; decide, by decide⟩

/-- For SnapshotShowsAllAndChangesNothing: a full stack and its two ends. -/
theorem witness_full_stack : (mk 0 16 1 []).sp.toNat ≤ 16 ∧ 0 < (mk 0 16 1 []).sp.toNat ∧ 15 < (mk 0 16 1 []).sp.toNat := by
  decide

/-- The lines of A5 up to its label. -/
def linesA5 : List SourceLine := [.instr (.jump .jmp ['e']), .instr (.plain .hlt)]

/-- The lines of A5 after its label. -/
def restA5 : List SourceLine := [.instr (.push (.literal 9)), .instr (.plain .out), .instr (.plain .hlt)]

/-- For LabelAddressIsWordsEmittedBefore, under both values of `ASM_JMP_EXTRA`. -/
theorem witness_label : ∃ st st' is,
    passOne params Symbols.initial (linesA5 ++ .label ['e'] :: restA5) = .ok st ∧ passTwo st linesA5 = .ok is ∧
    passOne { params with asmJmpExtra := false } Symbols.initial (linesA5 ++ .label ['e'] :: restA5) = .ok st' ∧
    ∃ is', passTwo st' linesA5 = .ok is' := ⟨_, _, _, rfl, rfl, rfl, _, rfl⟩

/-- For ListingReproducesSourceMnemonics. -/
theorem witness_listing : ∃ img, params.wf = true ∧ assembleLines params (linesA5 ++ .label ['e'] :: restA5) = .ok img :=
  ⟨_, by decide, rfl⟩

/-- A7, for ArraysPlacedWithGaps and ArrayOperandsResolve: two arrays, the second at 94. -/
theorem witness_arrays : ∃ st, passOne params Symbols.initial [.array ['a'] [1, 2, 3], .array ['b'] [4, 5]] = .ok st ∧
    st.arrays[0]? = some ⟨['a'], 88, [1, 2, 3]⟩ ∧ st.arrays[0 + 1]? = some ⟨['b'], 94, [4, 5]⟩ ∧
    PlacedArray.mk ['b'] 94 [4, 5] ∈ st.arrays ∧ 94 + 4294967201 < 4294967296 := ⟨_, rfl, by decide, by decide, by decide, by decide⟩

/-- A9, for both clauses of UndefinedLabelFailsAssembly. -/
theorem witness_undefined : SourceLine.instr (.jump .jmp ['n']) ∈ [SourceLine.instr (.jump .jmp ['n']), .instr (.plain .hlt)] ∧
    SourceLine.label ['n'] ∉ restA5 ++ SourceLine.instr (.jump .jmp ['n']) :: [.instr (.plain .hlt)] ∧
    ∃ st is, passOne params Symbols.initial (restA5 ++ SourceLine.instr (.jump .jmp ['n']) :: [.instr (.plain .hlt)]) = .ok st ∧
      passTwo st restA5 = .ok is := ⟨by decide, by decide, _, _, rfl, rfl⟩

/-- A8, for EmittedOperandsAreLiteralsAndAddresses: every kind of line. -/
theorem witness_emitted : ∃ img, assembleLines params [.array ['a'] [1, 2, 3], .array ['b'] [4, 5], .instr (.push (.literal 9)),
    .label ['x'], .blank, .comment, .instr (.push (.arrayName ['b'])), .instr (.push (.arrayOffset ['b'] 2)),
    .instr (.jump .je ['x']), .instr (.plain .hlt)] = .ok img ∧
    img.instructions = [0, 9, 0, 88, 0, 96, 0, 2, 10, 14] := ⟨_, rfl, by decide⟩

/-- For BlankAndCommentLinesAreIgnored: a comment line, and a line of white space. -/
theorem witness_ignored : "// c".toList.take 2 = ['/', '/'] ∧ ∀ ch ∈ " \t ".toList, isSpace ch = true :=
  ⟨by decide, by simp [isSpace]⟩

end Sys2Proof.Tests
end

/-! ## The default machine is the parametric one (spec/00_scope.md R7) -/

namespace Sys2Proof.Machine

/-- The two dispatch tables agree arm by arm: `exec` sends each instruction to the meaning that `execAt` sends it to, taken at
the default configuration. -/
theorem exec_eq_execAt (i : Instr) (s : State) : exec i s = execAt params i s := by
  cases i <;> rfl

/-- The same cycle runs both machines, so they differ at most in the meanings it is given. -/
theorem step_eq_stepAt (s : State) : step s = stepAt params s := by
  have meanings : exec = execAt params := funext fun i => funext (exec_eq_execAt i)
  rw [step, stepAt, meanings]

/-- Settles O37: the dispatch tables agree, and so do the steps that run them. -/
theorem defaultMachineIsParametricMachine : Obligations.DefaultMachineIsParametricMachine :=
  ⟨exec_eq_execAt, step_eq_stepAt⟩

end Sys2Proof.Machine

/-! ## What each instruction leaves, at the default parameters

One equation per instruction: `exec i s` always answers, and `executed i s` is its answer. What it does to each item of the
state follows once, and the statements about all instructions are read off from that. -/

namespace Sys2Proof.Machine

open Sys2Proof.Safety

/-- R12: the Word on top of the stack. -/
abbrev State.top (s : State) : Word := s.cell (cellIndex s.topAddr)

/-- R56: the Word of the entry below the top. -/
abbrev State.second (s : State) : Word := s.cell (cellIndex s.secondAddr)

/-- The state an instruction leaves at the default parameters; `exec_eq_next` ties it to `exec`. -/
def executed (i : Instr) (s : State) : State :=
  match i with
  | .push v => (pushed s.advance v).advance
  | .read => (pushed (popped s) (s.cell (cellIndex s.top))).advance
  | .write => ((popped (popped s)).setCell (cellIndex s.top) s.second).advance
  | .dup => (pushed s s.top).advance
  | .drop => (popped s).advance
  | .jmp => (popped s).setPc s.top
  | .out => ((popped s).emit s.top).advance
  | .cmp => ((popped (popped s)).setFlag (compareFlag .topSetsBit1 s.top s.second)).advance
  | .inc => (s.setCell (cellIndex s.topAddr) (s.top + 1)).advance
  | .dec => (s.setCell (cellIndex s.topAddr) (s.top - 1)).advance
  | .je => (popped s).setPc (if s.condEqual then s.top else s.pc + 1)
  | .jg => (popped s).setPc (if s.condGreater then s.top else s.pc + 1)
  | .add => (pushed (popped (popped s)) (s.second + s.top)).advance
  | .jl => (popped s).setPc (if s.condLess then s.top else s.pc + 1)
  | .hlt => s.setFlag flagHalted

/-- R133, R53: under the default `wrap` every instruction completes from every state. -/
theorem exec_eq_next (i : Instr) (s : State) : exec i s = .next (executed i s) := by
  have wrap : params.addrPolicy = .wrap := rfl
  cases i with
  | push v => simp only [exec, execPush, execPushAt, push_wrap wrap]; rfl
  | read =>
    simp only [exec, execRead, execReadAt, pop_wrap wrap, memRead_wrap wrap, push_wrap wrap, bind, Except.bind]; rfl
  | write => simp only [exec, execWrite, execWriteAt, popTwo_wrap wrap, memWrite_wrap wrap, bind, Except.bind]; rfl
  | dup => simp only [exec, execDup, execDupAt, memRead_wrap wrap, push_wrap wrap, bind, Except.bind]; rfl
  | drop => rfl
  | jmp => simp only [exec, execJmp, execJmpAt, jumpIf_wrap wrap]; rfl
  | out => simp only [exec, execOut, execOutAt, pop_wrap wrap, bind, Except.bind]; rfl
  | cmp => simp only [exec, execCmp, execCmpAt, popTwo_wrap wrap, bind, Except.bind]; rfl
  | inc => simp only [exec, execInc, execIncAt, updateTop_wrap wrap, bind, Except.bind]; rfl
  | dec => simp only [exec, execDec, execDecAt, updateTop_wrap wrap, bind, Except.bind]; rfl
  | je => simp only [exec, execJe, execJeAt, jumpIf_wrap wrap]; rfl
  | jg => simp only [exec, execJg, execJgAt, jumpIf_wrap wrap]; rfl
  | add => simp only [exec, execAdd, execAddAt, popTwo_wrap wrap, push_wrap wrap, bind, Except.bind]; rfl
  | jl => simp only [exec, execJl, execJlAt, jumpIf_wrap wrap]; rfl
  | hlt => rfl

/-- R34: OUT appends the top to the log, and no other instruction touches it. -/
theorem executed_out (i : Instr) (s : State) :
    (executed i s).out = s.out ++ (if i = .out then [s.top] else []) := by
  cases i <;> simp [executed]

/-- R28: no instruction but CMP and HLT writes `flag`. -/
theorem executed_flag_of_ne {i : Instr} (hcmp : i ≠ .cmp) (hhlt : i ≠ .hlt) (s : State) :
    (executed i s).flag = s.flag := by
  cases i with
  | cmp => exact absurd rfl hcmp
  | hlt => exact absurd rfl hhlt
  | _ => rfl

/-- R56: the memory an instruction leaves is the old one with at most the tabled cell written. -/
theorem executed_mem (i : Instr) (s : State) :
    (s.writeAddr i = none ∧ (executed i s).mem = s.mem) ∨
    ∃ a v, s.writeAddr i = some a ∧ (executed i s).mem = s.mem.write (cellIndex a) v := by
  cases i with
  | push v => exact .inr ⟨_, v, rfl, rfl⟩
  | read => exact .inr ⟨s.topAddr, s.cell (cellIndex s.top), rfl, by simp [executed, popped_freeAddr]⟩
  | add =>
    exact .inr ⟨s.secondAddr, s.second + s.top, rfl, by simp [executed, popped_freeAddr, popped_topAddr]⟩
  | write | dup | inc | dec => exact .inr ⟨_, _, rfl, rfl⟩
  | drop | jmp | je | jg | jl | out | cmp | hlt => exact .inl ⟨rfl, rfl⟩

/-- R160: CMP leaves one of three values in `flag`, under either pairing. -/
theorem compareFlag_cases (p : CmpPairing) (b a : Word) :
    compareFlag p b a = flagEqual ∨ compareFlag p b a = flagBit1 ∨ compareFlag p b a = flagBit2 := by
  unfold compareFlag
  split
  · cases p <;> simp
  · split
    · cases p <;> simp
    · simp

/-- Every instruction keeps the canonical form of memory. -/
theorem executed_keeps_memory_wf {s : State} (h : s.mem.wf) (i : Instr) : (executed i s).mem.wf := by
  rcases executed_mem i s with ⟨-, hmem⟩ | ⟨a, v, -, hmem⟩
  · rwa [hmem]
  · rw [hmem]; exact Memory.wf_write h (cellIndex_lt a) v

/-- R28: every instruction keeps `flag` at one of 0, 1, 3 and 5. -/
theorem executed_keeps_legalFlag {s : State} (h : legalFlag s.flag) (i : Instr) : legalFlag (executed i s).flag := by
  by_cases hcmp : i = .cmp
  · subst hcmp; exact .inr (compareFlag_cases .topSetsBit1 s.top s.second)
  · by_cases hhlt : i = .hlt
    · subst hhlt; exact .inl rfl
    · rwa [executed_flag_of_ne hcmp hhlt]

theorem executed_keeps_invariant {s : State} (h : stateInvariant s) (i : Instr) : stateInvariant (executed i s) :=
  ⟨executed_keeps_memory_wf h.1 i, executed_keeps_legalFlag h.2 i⟩

/-- Settles O25: a step that goes on executes one instruction, and each of them keeps the invariant. -/
theorem stepKeepsMemoryFormAndLegalFlag : Obligations.StepKeepsMemoryFormAndLegalFlag := by
  intro s t hs hstep
  obtain ⟨-, i, -, hi⟩ := cycle_next hstep
  obtain rfl : executed i s = t := Host.Outcome.next.inj ((exec_eq_next i s).symm.trans hi)
  exact executed_keeps_invariant hs i

end Sys2Proof.Machine

/-! ## One step as the host sees it, and the program counter -/

namespace Sys2Proof.Machine

open Sys2Proof.Safety

/-- R151: the condition of JE, in the bits of `flag`. -/
theorem condEqual_iff (s : State) : s.condEqual = true ↔ s.flag.getLsbD 1 = false ∧ s.flag.getLsbD 2 = false := by
  simp [State.condEqual, State.topGreater, State.secondGreater]

/-- R87: the machine is at the code of at most one mnemonic. -/
theorem atOpcode_unique {m n : Mnemonic} {s : State} (hm : atOpcode m s) (hn : atOpcode n s) : m = n :=
  Config.opc_injective defaultOpc_wf (hm.2.symm.trans hn.2)

theorem instrOf_eq_out_iff (m : Mnemonic) (v : Word) : instrOf m v = .out ↔ m = .out := by
  cases m <;> simp [instrOf]

/-- R188, R200: a step of a halted machine reports so and leaves the state. -/
theorem hostStep_of_halted {s : State} (h : s.isRunning = false) : hostStep s = (s, .halted) := by
  rw [hostStep, step, cycle_halted params exec h]; rfl

/-- R186: a step of a running machine whose Word at `pc` has no mnemonic's code reports so and leaves the state. -/
theorem hostStep_of_no_opcode {s : State} (hrun : s.isRunning = true)
    (h : decodeOpcode params (s.cell (cellIndex s.pc)) = none) :
    hostStep s = (s, .invalidOpcode s.pc (s.cell (cellIndex s.pc))) := by
  simp only [hostStep, step, cycle, hrun, if_true, fetch_of_no_opcode (c := params) rfl h]; rfl

/-- R87: a step at the code of a mnemonic executes its instruction. -/
theorem hostStep_of_atOpcode {m : Mnemonic} {s : State} (h : atOpcode m s) :
    hostStep s = (executed (instrOf m (s.cell (cellIndex (add32 s.pc 1)))) s, .executed) := by
  rw [hostStep, step_of_opcode h.1 h.2, exec_eq_next]; rfl

/-- R185: what a step does as the host sees it. At the code of a mnemonic its instruction is executed; otherwise
(no instruction has the code, or the machine is halted) nothing is executed and the state stays. -/
theorem hostStep_cases (s : State) :
    (∃ m, atOpcode m s ∧
      hostStep s = (executed (instrOf m (s.cell (cellIndex (add32 s.pc 1)))) s, .executed)) ∨
    ((∀ m, ¬ atOpcode m s) ∧ (hostStep s).1 = s ∧ (hostStep s).2 ≠ .executed) := by
  cases hrun : s.isRunning with
  | false =>
    have hnone (m : Mnemonic) : ¬ atOpcode m s := fun hm => absurd (hrun.symm.trans hm.1) (by decide)
    exact .inr ⟨hnone, by simp [hostStep_of_halted hrun]⟩
  | true =>
    cases hdec : decodeOpcode params (s.cell (cellIndex s.pc)) with
    | some m =>
      have hm : atOpcode m s := ⟨hrun, (code_of_decodeOpcode hdec).symm⟩
      exact .inl ⟨m, hm, hostStep_of_atOpcode hm⟩
    | none =>
      have hnone (m : Mnemonic) : ¬ atOpcode m s := fun hm =>
        absurd (hdec.symm.trans (decodeOpcode_of_code defaultOpc_wf hm.2)) (by simp)
      exact .inr ⟨hnone, by simp [hostStep_of_no_opcode hrun hdec]⟩

/-- R22: a step that executes nothing leaves the whole state. -/
theorem hostStep_of_not_executed {s : State} (h : (hostStep s).2 ≠ .executed) : (hostStep s).1 = s := by
  rcases hostStep_cases s with ⟨m, -, hm⟩ | ⟨-, hs, -⟩
  · rw [hm] at h; exact absurd rfl h
  · exact hs

/-- Settles O18: the equation of each instruction, and the step that executes nothing. -/
theorem programCounterMovesByTable : Obligations.ProgramCounterMovesByTable := by
  refine ⟨fun i s => ⟨_, exec_eq_next i s, ?_⟩, fun s h => by rw [hostStep_of_not_executed h]⟩
  cases i with
  | push v => exact add32_one_one s.pc
  | je => simp only [executed, State.setPc_pc, condEqual_iff]
  | jg | jl => rfl
  | jmp => rfl
  | read | write | dup | drop | out | cmp | inc | dec | add | hlt => rfl

/-! ## Runs -/

/-- R202: the step a run of `n + 1` ends with. -/
theorem hostRun_succ (n : Nat) (s : State) : hostRun (n + 1) s = (hostStep (hostRun n s)).1 := by
  induction n generalizing s with
  | zero => rfl
  | succ n ih => exact ih (hostStep s).1

/-- What every step keeps holds along every run. -/
theorem hostRun_keeps {P : State → Prop} (hstep : ∀ s, P s → P (hostStep s).1) {s : State} (h : P s) (n : Nat) :
    P (hostRun n s) := by
  induction n with
  | zero => exact h
  | succ n ih => rw [hostRun_succ]; exact hstep _ ih

/-- The invariant as the host sees it: whether or not the step executes an instruction. -/
theorem hostStep_keeps_invariant (s : State) (h : stateInvariant s) : stateInvariant (hostStep s).1 := by
  rcases hostStep_cases s with ⟨m, -, hm⟩ | ⟨-, hs, -⟩
  · rw [hm]; exact executed_keeps_invariant h _
  · rwa [hs]

/-- R200: a run from a halted state stays there. -/
theorem hostRun_of_halted {s : State} (h : s.isRunning = false) (n : Nat) : hostRun n s = s := by
  induction n with
  | zero => rfl
  | succ n ih => rw [hostRun_succ, ih, hostStep_of_halted h]

/-- Settles O34, by induction on the number of steps: where the checked loop stops, unchecked stepping stands still. -/
theorem checkedLoopEqualsPlainStepping : Obligations.CheckedLoopEqualsPlainStepping := by
  intro n
  induction n with
  | zero => exact fun _ => rfl
  | succ n ih =>
    intro s
    rw [hostLoop]
    split
    · exact ih (hostStep s).1
    · rename_i hrun
      exact (hostRun_of_halted (by simpa using hrun) (n + 1)).symm

/-! ## The flag -/

/-- R36, R210: what `load` builds meets the invariant. -/
theorem loadedState_invariant (img : LoadImage) : stateInvariant (loadedState img) :=
  ⟨Memory.wf_place (Memory.wf_placeArrays Memory.wf_nil _) _ _, .inr (.inl rfl)⟩

/-- A program with no arrays. -/
def bareImage (ws : List Word) : LoadImage := { instructions := ws, arrays := [] }

/-- R28: each legal value of `flag` is reached: 1 by a load, 0 by HLT, 3 by CMP of 3 and 5, 5 by CMP of 5 and 3. -/
theorem legalFlag_reached {f : Word} (h : legalFlag f) :
    ∃ img s n, load img = .ok s ∧ (hostRun n s).flag = f := by
  rcases h with rfl | rfl | rfl | rfl
  · exact ⟨bareImage [14], _, 1, load_of_wf (by decide), by decide⟩
  · exact ⟨bareImage [], _, 0, load_of_wf (by decide), rfl⟩
  · exact ⟨bareImage [0, 3, 0, 5, 7], _, 3, load_of_wf (by decide), by decide⟩
  · exact ⟨bareImage [0, 5, 0, 3, 7], _, 3, load_of_wf (by decide), by decide⟩

/-- Settles O19: load's value, the instructions' table, and the values in the runs of loaded programs, which the invariant
bounds and four programs reach. -/
theorem flagWrittenOnlyByLoadCmpHlt : Obligations.FlagWrittenOnlyByLoadCmpHlt := by
  refine ⟨fun img s h => by rw [load_ok h]; rfl, fun i s => ⟨_, exec_eq_next i s, ?_⟩, fun f => ⟨?_, legalFlag_reached⟩⟩
  · cases i with
    | cmp => exact compareFlag_cases .topSetsBit1 s.top s.second
    | hlt => rfl
    | push | read | write | dup | drop | jmp | out | inc | dec | je | jg | add | jl =>
      exact executed_flag_of_ne (by simp) (by simp) s
  · rintro ⟨img, s, n, hload, rfl⟩
    rw [load_ok hload]
    exact (hostRun_keeps hostStep_keeps_invariant (loadedState_invariant img) n).2

/-! ## The output log -/

/-- R175: a step appends the top to the log if it executes OUT, and nothing else does. -/
theorem hostStep_out (s : State) :
    (hostStep s).1.out = s.out ++ (if atOpcode .out s then [s.top] else []) := by
  rcases hostStep_cases s with ⟨m, hat, hm⟩ | ⟨hnone, hs, -⟩
  · have hout : instrOf m (s.cell (cellIndex (add32 s.pc 1))) = .out ↔ atOpcode .out s := by
      rw [instrOf_eq_out_iff]
      exact ⟨fun h => h ▸ hat, fun h => atOpcode_unique hat h⟩
    simp only [hm, executed_out, hout]
  · rw [hs, if_neg (hnone .out), List.append_nil]

theorem outSteps_succ (n : Nat) (s : State) :
    outSteps (n + 1) s = outSteps n s ++ (if atOpcode .out (hostRun n s) then [n] else []) := by
  simp only [outSteps, List.range_succ, List.filter_append, List.filter_singleton, Bool.cond_decide]

/-- Settles O22, by induction on the number of steps. -/
theorem logOnlyGrowsByOut : Obligations.LogOnlyGrowsByOut := by
  refine ⟨fun i s => ⟨_, exec_eq_next i s, executed_out i s⟩, fun n s => ?_⟩
  induction n with
  | zero => simp [hostRun, outSteps]
  | succ n ih =>
    rw [hostRun_succ, hostStep_out, ih, outSteps_succ, List.map_append, List.append_assoc]
    by_cases h : atOpcode .out (hostRun n s)
    · rw [if_pos h, if_pos h]; rfl
    · rw [if_neg h, if_neg h]; rfl

end Sys2Proof.Machine

/-! ## The ends of the stack region -/

namespace Sys2Proof.Machine

open Sys2Proof.Safety

/-- R130: PUSH is a push of its operand. -/
theorem pushedTo_executed_push (v : Word) (s : State) :
    pushedTo (cellIndex s.freeAddr) v 2 s (executed (.push v) s) := by
  refine ⟨add32_one_one s.pc, rfl, rfl, rfl, ?_, fun b hb => ?_⟩
  · simp [executed, pushed]
  · simp [executed, pushed, hb]

/-- R131: DUP is a push of the top. -/
theorem pushedTo_executed_dup (s : State) : pushedTo (cellIndex s.freeAddr) s.top 1 s (executed .dup s) := by
  refine ⟨rfl, rfl, rfl, rfl, ?_, fun b hb => ?_⟩
  · simp [executed, pushed]
  · simp [executed, pushed, hb]

/-- R25: the free slot's cell for a given `sp`. -/
theorem cellIndex_freeAddr_of_sp {s : State} {v : Word} (h : s.sp = v) :
    cellIndex s.freeAddr = cellIndex (stackBase + v) := by rw [← h]; rfl

/-- R12: the top's cell for a given `sp`. -/
theorem cellIndex_topAddr_of_sp {s : State} {v : Word} (h : s.sp = v) :
    cellIndex s.topAddr = cellIndex (stackBase + v - 1) := by rw [← h]; rfl

/-- R26: a PUSH at a given `sp`, named by the cell it lands in. -/
theorem exec_push_at_sp (v : Word) {s : State} {p : Word} (hsp : s.sp = p) :
    ∃ t, exec (.push v) s = .next t ∧ t.sp = p + 1 ∧ pushedTo (cellIndex (stackBase + p)) v 2 s t := by
  have hpush := pushedTo_executed_push v s
  rw [cellIndex_freeAddr_of_sp hsp] at hpush
  exact ⟨_, exec_eq_next _ s, hsp ▸ rfl, hpush⟩

/-- R26: a DUP at a given `sp`, named by the cells it copies from and to. -/
theorem exec_dup_at_sp {s : State} {p : Word} (hsp : s.sp = p) :
    ∃ t, exec .dup s = .next t ∧ t.sp = p + 1 ∧
      pushedTo (cellIndex (stackBase + p)) (s.cell (cellIndex (stackBase + p - 1))) 1 s t := by
  have hdup := pushedTo_executed_dup s
  rw [State.top, cellIndex_freeAddr_of_sp hsp, cellIndex_topAddr_of_sp hsp] at hdup
  exact ⟨_, exec_eq_next _ s, hsp ▸ rfl, hdup⟩

/-- R25: with fewer than 16 entries the free slot lies in the stack region. -/
theorem cellIndex_freeAddr_of_lt {s : State} (h : s.sp.toNat < 16) : cellIndex s.freeAddr = 72 + s.sp.toNat := by
  have hfree : s.freeAddr.toNat = (72 + s.sp.toNat) % 4294967296 := add32_toNat stackBase s.sp
  rw [cellIndex, hfree, memSize]
  omega

/-- R219: with fewer than 16 entries there is room for one more. -/
theorem stackInRegion_of_sp_succ {s t : State} (h : s.sp.toNat < 16) (ht : t.sp = s.sp + 1) : stackInRegion t = true := by
  have hsp : t.sp.toNat = (s.sp.toNat + 1) % 4294967296 := ht ▸ add32_toNat s.sp 1
  have hle : t.sp.toNat ≤ 16 := by omega
  exact decide_eq_true hle

/-- Settles O24: PUSH and DUP at `sp` 16, 0 and below 16, and a pop at `sp` 0. -/
theorem stackOverflowAndUnderflowAreSilent : Obligations.StackOverflowAndUnderflowAreSilent := by
  refine ⟨fun v s h => exec_push_at_sp v h, fun s h => exec_dup_at_sp h, fun v s h => ?_,
    fun s h => exec_dup_at_sp h, fun v s h => ⟨cellIndex_freeAddr_of_lt h, ?_, ?_⟩⟩
  · have hsp : (executed .out s).sp = 0xFFFFFFFF := by
      show s.sp - 1 = 0xFFFFFFFF
      rw [h]; rfl
    obtain ⟨u, hu, husp, hpush⟩ := exec_push_at_sp v hsp
    refine ⟨_, u, exec_eq_next .out s, rfl, hsp, rfl, ?_, fun _ => rfl, hu, husp, hpush⟩
    rw [executed_out, if_pos rfl, State.top, cellIndex_topAddr_of_sp h]; rfl
  · exact ⟨_, exec_eq_next _ s, stackInRegion_of_sp_succ h rfl, pushedTo_executed_push v s⟩
  · exact ⟨_, exec_eq_next _ s, stackInRegion_of_sp_succ h rfl, pushedTo_executed_dup s⟩

/-! ## The canonical form of memory -/

/-- A cell that does not hold the cleared value is listed. -/
theorem Memory.mem_of_read_ne {m : Memory} {a : Nat} (h : m.read a ≠ clearedCell) : (a, m.read a) ∈ m := by
  induction m with
  | nil => exact absurd rfl h
  | cons p rest ih =>
    rw [Memory.read] at h ⊢
    split at h <;> rename_i hp
    · rw [if_pos hp, ← hp]; exact List.mem_cons_self
    · rw [if_neg hp]; exact List.mem_cons_of_mem _ (ih h)

/-- Where the addresses rise strictly, a listed Word is what its cell reads as. -/
theorem Memory.read_of_mem {m : Memory} (hm : m.Pairwise fun p q => p.1 < q.1) {p : Nat × Word} (hp : p ∈ m) :
    m.read p.1 = p.2 := by
  induction m with
  | nil => cases hp
  | cons q rest ih =>
    obtain ⟨hq, hrest⟩ := List.pairwise_cons.1 hm
    rcases List.mem_cons.1 hp with rfl | hp
    · exact if_pos rfl
    · exact (if_neg (hq p hp).ne).trans (ih hrest hp)

/-- A memory in canonical form lists exactly the cells of the array that do not hold the cleared value. -/
theorem Memory.mem_iff_read {m : Memory} (hm : m.wf) (p : Nat × Word) :
    p ∈ m ↔ p.1 < memSize ∧ p.2 ≠ clearedCell ∧ m.read p.1 = p.2 := by
  constructor
  · intro hp
    obtain ⟨hlt, hne⟩ := hm.2 p hp
    exact ⟨hlt, hne, Memory.read_of_mem hm.1 hp⟩
  · rintro ⟨-, hne, hread⟩
    have := Memory.mem_of_read_ne (m := m) (a := p.1) (by rwa [hread])
    rwa [hread] at this

/-- The addresses of a canonical memory rise strictly, so no entry is listed twice. -/
theorem Memory.nodup_of_wf {m : Memory} (hm : m.wf) : m.Nodup :=
  hm.1.imp fun hlt heq => absurd (congrArg Prod.fst heq) hlt.ne

/-- Settles O27: canonical memories that agree on the cells list the same entries, each in the one rising order. -/
theorem canonicalMemoriesEqualIfCellsAgree : Obligations.CanonicalMemoriesEqualIfCellsAgree := by
  intro m m' hm hm' hread
  have hperm : m.Perm m' := by
    rw [List.perm_ext_iff_of_nodup (Memory.nodup_of_wf hm) (Memory.nodup_of_wf hm')]
    intro p
    rw [Memory.mem_iff_read hm, Memory.mem_iff_read hm']
    exact and_congr_right fun hlt => by rw [hread p.1 hlt]
  exact hperm.eq_of_pairwise (fun _ _ _ _ hlt hgt => absurd hlt hgt.asymm) hm.1 hm'.1

/-- Settles O26: `load` of nothing answers the reset state, every cell of which is cleared. -/
theorem resetIsEmptyLoadAndLegal : Obligations.ResetIsEmptyLoadAndLegal :=
  ⟨load_of_wf (by decide), loadedState_invariant (bareImage []), rfl, rfl, rfl, rfl, fun _ => rfl⟩

/-! ## The host's operations -/

/-- R40: operations compose in sequence. -/
theorem transactAll_append (m : Option State) (ops ops' : List HostOp) :
    transactAll m (ops ++ ops') = transactAll (transactAll m ops) ops' := by
  induction ops generalizing m with
  | nil => rfl
  | cons op rest ih => exact ih (transact m op).1

/-- R210, R213: a load that fits replaces whatever machine there was. -/
theorem transact_load_of_wf {img : LoadImage} (h : img.wf = true) (m : Option State) :
    transact m (.load img) = (some (loadedState img), .loaded) := by
  simp only [transact, load_of_wf h]

/-- Settles O51: the last operation is a load that fits, and its answer does not look at the machine. -/
theorem nothingPersistsAcrossLoad : Obligations.NothingPersistsAcrossLoad := by
  intro img m m' ops ops' hwf
  have hlast (m : Option State) (ops : List HostOp) :
      transactAll m (ops ++ [.load img]) = some (loadedState img) := by
    rw [transactAll_append, transactAll, transact_load_of_wf hwf, transactAll]
  exact ⟨_, load_of_wf hwf, hlast m ops, hlast m' ops'⟩

/-- R39: within 0 to 16 entries the live stack is the cells from 72 up. -/
theorem liveStack_of_le {s : State} (h : s.sp.toNat ≤ 16) :
    s.liveStack = some ((List.range s.sp.toNat).map fun k => s.cell (72 + k)) := if_pos h

/-- Settles O52: the two operations answer from the state and hand it back; the view lists its cells. -/
theorem snapshotShowsAllAndChangesNothing : Obligations.SnapshotShowsAllAndChangesNothing := by
  refine fun s => ⟨rfl, s.snapshot, rfl, rfl, rfl, rfl, rfl, ?_, fun a ha => ?_, fun h => ⟨_, liveStack_of_le h, ?_, ?_⟩⟩
  · simp [State.snapshot, memSize]
  · simp [State.snapshot, memSize, ha]
  · simp
  · intro k hk
    simp [hk]

/-! ## The rendering of the log -/

/-- R34, R109: the character of a decimal digit has that digit's value. -/
theorem digitValue_digit {d : Nat} (h : d < 10) : digitValue (Char.ofNat (48 + d)) = some d := by
  have digits : ∀ d < 10, digitValue (Char.ofNat (48 + d)) = some d := by decide
  exact digits d h

/-- R34: of the ten digits only 0 is written '0'. -/
theorem digit_eq_zero {d : Nat} (h : d < 10) (hd : Char.ofNat (48 + d) = '0') : d = 0 := by
  have digits : ∀ d < 10, Char.ofNat (48 + d) = '0' → d = 0 := by decide
  exact digits d h hd

theorem decimalDigits_ne_nil (fuel n : Nat) (acc : List Char) : decimalDigits (fuel + 1) n acc ≠ [] := by
  induction fuel generalizing n acc with
  | zero => rw [decimalDigits]; split <;> simp [decimalDigits]
  | succ f ih =>
    rw [decimalDigits]
    split
    · simp
    · exact ih _ _

/-- Reading the digits of `n` and then `acc` is reading `acc` after the value `n`. -/
theorem digitsValue_decimalDigits {fuel n : Nat} (h : n < 10 ^ fuel) (acc : List Char) :
    digitsValue 0 (decimalDigits fuel n acc) = digitsValue n acc := by
  induction fuel generalizing n acc with
  | zero => rw [decimalDigits, show n = 0 by omega]
  | succ f ih =>
    have hdigit := digitValue_digit (Nat.mod_lt n (show 0 < 10 by decide))
    rw [decimalDigits]
    split
    · simp only [digitsValue, hdigit]
      congr 1; omega
    · rw [ih (by omega)]
      simp only [digitsValue, hdigit]
      congr 1; omega

/-- R34, no leading zeros: the digits of a positive number do not begin with 0. -/
theorem decimalDigits_head?_ne_zero {fuel n : Nat} (hpos : 0 < n) (h : n < 10 ^ fuel) (acc : List Char) :
    (decimalDigits fuel n acc).head? ≠ some '0' := by
  induction fuel generalizing n acc with
  | zero => omega
  | succ f ih =>
    rw [decimalDigits]
    split
    · intro hhead
      have := digit_eq_zero (Nat.mod_lt n (by decide)) (Option.some.inj hhead)
      omega
    · exact ih (by omega) (by omega) _

/-- R34: a Word has at most ten decimal digits. -/
theorem toNat_lt_ten_pow (w : Word) : w.toNat < 10 ^ 10 := (toNat_lt_two_pow w).trans (by decide)

/-- R34, R109: the rendering is a numeral of the Word's value. -/
theorem parseNumeral_renderWord (w : Word) : parseNumeral (renderWord w) = some w.toNat := by
  have hne : (renderWord w).isEmpty = false :=
    List.isEmpty_eq_false_iff.2 (decimalDigits_ne_nil 9 w.toNat [])
  rw [parseNumeral, hne]
  exact digitsValue_decimalDigits (toNat_lt_ten_pow w) []

/-- Settles O53: the digits read back as the Word's value, and a leading 0 leaves only the Word 0. -/
theorem renderedWordReadsBack : Obligations.RenderedWordReadsBack := by
  refine fun w => ⟨?_, fun hhead => ?_⟩
  · simp only [parseWord, parseNumeral_renderWord, if_pos w.isLt, BitVec.ofNat_toNat, BitVec.setWidth_eq]
  · have hzero : w.toNat = 0 := by
      by_contra hne
      exact decimalDigits_head?_ne_zero (Nat.pos_of_ne_zero hne) (toNat_lt_ten_pow w) [] hhead
    rw [renderWord, hzero]; rfl

end Sys2Proof.Machine

/-! ## Memory: addresses, and the cells an instruction reads and writes (spec/20_memory.md) -/

namespace Sys2Proof.Machine

open Sys2Proof.Safety

/-- Settles O42: 1024 divides 2^32, so reducing the sum to a Word first does not change its cell. -/
theorem effectiveAddressOfSum : Obligations.EffectiveAddressOfSum := by
  intro x y
  rw [cellIndex, add32_toNat, memSize]
  omega

/-- Settles O41: under `wrap` both accesses are to the cells the addresses name. -/
theorem writeIsReadBackModulo1024 : Obligations.WriteIsReadBackModulo1024 := by
  have wrap : params.addrPolicy = .wrap := rfl
  refine fun s a b v => ⟨_, memWrite_wrap wrap s a v, ?_, rfl, rfl, rfl, rfl⟩
  rw [memRead_wrap wrap, State.cell_setCell]; rfl

/-- R141: what WRITE leaves in the cell the top names. -/
theorem executed_write_cell (s : State) : (executed .write s).cell (cellIndex s.top) = s.second := by
  simp [executed]

/-- Settles O36: WRITE leaves the stored Word in the cell the next step fetches from. -/
theorem storeToNextInstructionIsExecuted : Obligations.StoreToNextInstructionIsExecuted := by
  intro s m hrun hnext hcode
  refine ⟨_, exec_eq_next .write s, step_of_opcode hrun ?_⟩
  show opcodeOf ((executed .write s).cell (cellIndex (add32 s.pc 1))) = params.opc m
  rw [← hnext, executed_write_cell, hcode]

/-! ### The cell an instruction writes (R56) -/

/-- R56: an instruction leaves every cell but the tabled one as it was. -/
theorem executed_cell_of_ne_dataWrite {i : Instr} {s : State} {a : Nat} (h : s.dataWrite i ≠ some a) :
    (executed i s).cell a = s.cell a := by
  rcases executed_mem i s with ⟨-, hmem⟩ | ⟨w, v, hw, hmem⟩
  · rw [State.cell, hmem, State.cell]
  · have ha : a ≠ cellIndex w := fun ha => h (by rw [State.dataWrite, hw, ha]; rfl)
    rw [State.cell, hmem, Memory.read_write, if_neg ha, State.cell]

/-- Settles O20: every instruction completes, and its memory differs at the tabled cell alone. -/
theorem onlyTheTabledCellIsWritten : Obligations.OnlyTheTabledCellIsWritten :=
  fun i s => ⟨_, exec_eq_next i s, fun _ h => executed_cell_of_ne_dataWrite h⟩

/-- The Word an instruction writes, if it writes one; `executed_cell_of_dataWrite` ties it to the model. -/
def State.writtenWord (s : State) (i : Instr) : Option Word :=
  match i with
  | .push v => some v
  | .dup => some s.top
  | .read => some (s.cell (cellIndex s.top))
  | .inc => some (s.top + 1)
  | .dec => some (s.top - 1)
  | .write => some s.second
  | .add => some (s.second + s.top)
  | .drop | .jmp | .je | .jg | .jl | .out | .cmp | .hlt => none

/-- R56: what the tabled cell holds afterwards. -/
theorem executed_cell_of_dataWrite {i : Instr} {s : State} {a : Nat} (h : s.dataWrite i = some a) :
    some ((executed i s).cell a) = s.writtenWord i := by
  cases i with
  | drop | jmp | je | jg | jl | out | cmp | hlt => cases h
  | push | dup | write | inc | dec =>
    cases h; simp [executed, pushed, State.writtenWord]
  | read => cases h; simp [executed, pushed, State.writtenWord, popped_freeAddr]
  | add => cases h; simp [executed, pushed, State.writtenWord, popped_freeAddr, popped_topAddr]

/-! ### The cells an instruction reads (R56) -/

/-- R56: two states that agree on the registers and on the cells `i` may read. -/
structure SameReads (i : Instr) (s s' : State) : Prop where
  pc : s'.pc = s.pc
  sp : s'.sp = s.sp
  flag : s'.flag = s.flag
  out : s'.out = s.out
  cells : ∀ a ∈ s.dataReads i, s'.cell a = s.cell a

namespace SameReads

variable {i : Instr} {s s' : State}

theorem freeAddr (h : SameReads i s s') : s'.freeAddr = s.freeAddr := by rw [State.freeAddr, h.sp, State.freeAddr]

theorem topAddr (h : SameReads i s s') : s'.topAddr = s.topAddr := by rw [State.topAddr, h.sp, State.topAddr]

theorem secondAddr (h : SameReads i s s') : s'.secondAddr = s.secondAddr := by
  rw [State.secondAddr, h.sp, State.secondAddr]

/-- The cell of an address that `i` reads at. -/
theorem cell (h : SameReads i s s') {a : Word} (ha : a ∈ s.readAddrs i) : s'.cell (cellIndex a) = s.cell (cellIndex a) :=
  h.cells _ (List.mem_map_of_mem ha)

theorem top (h : SameReads i s s') (hi : s.topAddr ∈ s.readAddrs i) : s'.top = s.top := by
  rw [State.top, h.topAddr]; exact h.cell hi

theorem second (h : SameReads i s s') (hi : s.secondAddr ∈ s.readAddrs i) : s'.second = s.second := by
  rw [State.second, h.secondAddr]; exact h.cell hi

end SameReads

/-- R56: the address of the write is among what the reads determine. -/
theorem SameReads.writeAddr {i : Instr} {s s' : State} (h : SameReads i s s') : s'.writeAddr i = s.writeAddr i := by
  cases i with
  | push | dup => exact congrArg some h.freeAddr
  | read | inc | dec => exact congrArg some h.topAddr
  | add => exact congrArg some h.secondAddr
  | write => exact congrArg some (h.top List.mem_cons_self)
  | drop | jmp | je | jg | jl | out | cmp | hlt => rfl

/-- R56: so is the written cell. -/
theorem SameReads.dataWrite {i : Instr} {s s' : State} (h : SameReads i s s') : s'.dataWrite i = s.dataWrite i :=
  congrArg (Option.map cellIndex) h.writeAddr

/-- R56: so is the Word written there. -/
theorem SameReads.writtenWord {i : Instr} {s s' : State} (h : SameReads i s s') :
    s'.writtenWord i = s.writtenWord i := by
  cases i with
  | push | drop | jmp | je | jg | jl | out | cmp | hlt => rfl
  | dup | inc | dec => simp only [State.writtenWord, h.top List.mem_cons_self]
  | read =>
    have hread : s.top ∈ s.readAddrs .read := List.mem_cons_of_mem _ List.mem_cons_self
    simp only [State.writtenWord, h.top List.mem_cons_self, h.cell hread]
  | write | add =>
    have hsecond : s.secondAddr ∈ [s.topAddr, s.secondAddr] := List.mem_cons_of_mem _ List.mem_cons_self
    simp only [State.writtenWord, h.top List.mem_cons_self, h.second hsecond]

/-! R151 to R153: so are the conditions of the jumps. -/

theorem SameReads.condEqual {i : Instr} {s s' : State} (h : SameReads i s s') : s'.condEqual = s.condEqual := by
  simp only [State.condEqual, State.topGreater, State.secondGreater, h.flag]

theorem SameReads.condGreater {i : Instr} {s s' : State} (h : SameReads i s s') : s'.condGreater = s.condGreater := by
  simp only [State.condGreater, State.topGreater, h.flag]

theorem SameReads.condLess {i : Instr} {s s' : State} (h : SameReads i s s') : s'.condLess = s.condLess := by
  simp only [State.condLess, State.secondGreater, h.flag]

/-- R22: so is `pc`. -/
theorem SameReads.executed_pc {i : Instr} {s s' : State} (h : SameReads i s s') :
    (executed i s').pc = (executed i s).pc := by
  cases i with
  | jmp => exact h.top List.mem_cons_self
  | je => exact if_congr (by rw [h.condEqual]) (h.top List.mem_cons_self) (by rw [h.pc])
  | jg => exact if_congr (by rw [h.condGreater]) (h.top List.mem_cons_self) (by rw [h.pc])
  | jl => exact if_congr (by rw [h.condLess]) (h.top List.mem_cons_self) (by rw [h.pc])
  | hlt => exact h.pc
  | push | read | write | dup | drop | out | cmp | inc | dec | add => simp [executed, h.pc]

/-- R133: so is `sp`. -/
theorem SameReads.executed_sp {i : Instr} {s s' : State} (h : SameReads i s s') :
    (executed i s').sp = (executed i s).sp := by
  cases i <;> simp [executed, h.sp]

/-- R28: so is `flag`. -/
theorem SameReads.executed_flag {i : Instr} {s s' : State} (h : SameReads i s s') :
    (executed i s').flag = (executed i s).flag := by
  by_cases hcmp : i = .cmp
  · subst hcmp
    have hsecond : s.secondAddr ∈ s.readAddrs .cmp := List.mem_cons_of_mem _ List.mem_cons_self
    simp [executed, h.top List.mem_cons_self, h.second hsecond]
  · by_cases hhlt : i = .hlt
    · subst hhlt; rfl
    · rw [executed_flag_of_ne hcmp hhlt, executed_flag_of_ne hcmp hhlt, h.flag]

/-- R34: so is the log. -/
theorem SameReads.executed_out {i : Instr} {s s' : State} (h : SameReads i s s') :
    (executed i s').out = (executed i s).out := by
  rw [Machine.executed_out, Machine.executed_out, h.out]
  split
  · rename_i hout; subst hout; rw [h.top List.mem_cons_self]
  · rfl

/-- Settles O21: every register, the written cell and the Word written there are determined by the registers and the reads. -/
theorem resultDependsOnlyOnTabledReads : Obligations.ResultDependsOnlyOnTabledReads := by
  intro i s s' hpc hsp hflag hout hcells
  have h : SameReads i s s' := ⟨hpc, hsp, hflag, hout, hcells⟩
  refine ⟨_, _, exec_eq_next i s, exec_eq_next i s', h.executed_pc, h.executed_sp, h.executed_flag, h.executed_out,
    h.dataWrite, fun a ha => Option.some.inj ?_⟩
  rw [executed_cell_of_dataWrite ha, executed_cell_of_dataWrite (h.dataWrite.trans ha), h.writtenWord]

/-! ## `ADDR_POLICY = refuse` (R53, D3)

What the machine does under `refuse` is what it does under `wrap`, unless an address among those it accesses lies beyond the
memory: `unlessWild` says so of one access, composes along the accesses of a step, and so says it of the step. -/

/-- The first address of a list that names no cell. -/
def wildIn (as : List Word) : Option Word := as.find? fun a => decide (memSize ≤ a.toNat)

/-- `r`, unless one of the addresses `as` names no cell: then the refusal of the first such address, answered by `refuse`. -/
def unlessWild {α : Type} (refuse : Refusal → α) (as : List Word) (r : α) : α :=
  match wildIn as with
  | none => r
  | some a => refuse (.addressBeyondMemory a)

section UnlessWild

variable {α β : Type} {refuse : Refusal → α} {as : List Word} {r : α}

theorem memSize_le_of_wildIn {a : Word} (h : wildIn as = some a) : memSize ≤ a.toNat := by
  simpa using List.find?_some h

theorem unlessWild_of_none (h : wildIn as = none) : unlessWild refuse as r = r := by rw [unlessWild, h]

theorem unlessWild_of_some {a : Word} (h : wildIn as = some a) :
    unlessWild refuse as r = refuse (.addressBeyondMemory a) := by rw [unlessWild, h]

theorem unlessWild_nil : unlessWild refuse [] r = r := rfl

/-- One access. -/
theorem unlessWild_singleton (a : Word) :
    unlessWild refuse [a] r = if a.toNat < memSize then r else refuse (.addressBeyondMemory a) := by
  by_cases h : a.toNat < memSize
  · rw [if_pos h, unlessWild_of_none (by simp [wildIn, h])]
  · rw [if_neg h, unlessWild_of_some (a := a) (by simpa [wildIn] using h)]

/-- The accesses `as`, then the accesses `bs`. -/
theorem unlessWild_unlessWild (bs : List Word) :
    unlessWild refuse as (unlessWild refuse bs r) = unlessWild refuse (as ++ bs) r := by
  have happend : wildIn (as ++ bs) = (wildIn as).or (wildIn bs) := List.find?_append
  cases has : wildIn as with
  | some a => rw [unlessWild_of_some has, unlessWild_of_some (by rw [happend, has, Option.some_or])]
  | none =>
    rw [unlessWild_of_none has, unlessWild, unlessWild, happend, has, Option.none_or]

/-- What is done with the answer is done with the refusal too. -/
theorem apply_unlessWild (f : α → β) : f (unlessWild refuse as r) = unlessWild (fun e => f (refuse e)) as (f r) := by
  unfold unlessWild; split <;> rfl

/-- A refused access ends the computation it stands in. -/
theorem unlessWild_bind (v : α) (f : α → Except Refusal β) :
    (unlessWild .error as (.ok v) >>= f) = unlessWild .error as (f v) :=
  apply_unlessWild fun x : Except Refusal α => x >>= f

theorem answer_unlessWild (x : Except Refusal State) :
    answer (unlessWild .error as x) = unlessWild .refused as (answer x) := apply_unlessWild answer

end UnlessWild

/-! ### The shared operations under `refuse` -/

section Refusing

variable {c : Config} (hc : c.addrPolicy = .refuse) (s : State)

include hc

theorem memRead_unlessWild (a : Word) : s.memRead c a = unlessWild .error [a] (.ok (s.cell (cellIndex a))) := by
  rw [memRead_refuse hc, unlessWild_singleton]

theorem memWrite_unlessWild (a v : Word) :
    s.memWrite c a v = unlessWild .error [a] (.ok (s.setCell (cellIndex a) v)) := by
  rw [memWrite_refuse hc, unlessWild_singleton]

theorem push_unlessWild (v : Word) : s.push c v = unlessWild .error [s.freeAddr] (.ok (pushed s v)) := by
  rw [State.push, memWrite_unlessWild hc, unlessWild_bind]; rfl

theorem pop_unlessWild :
    s.pop c = unlessWild .error [s.topAddr] (.ok (s.cell (cellIndex s.topAddr), popped s)) := by
  show ((popped s).memRead c (popped s).freeAddr >>= fun v => pure (v, popped s)) = _
  rw [memRead_unlessWild hc, unlessWild_bind, popped_freeAddr]; rfl

theorem popTwo_unlessWild :
    s.popTwo c = unlessWild .error [s.topAddr, s.secondAddr] (.ok ((s.top, s.second), popped (popped s))) := by
  simp only [State.popTwo, pop_unlessWild hc, unlessWild_bind, unlessWild_unlessWild, popped_topAddr]; rfl

theorem updateTop_unlessWild (f : Word → Word) :
    s.updateTop c f = unlessWild .error [s.topAddr, s.topAddr] (.ok (s.setCell (cellIndex s.topAddr) (f s.top))) := by
  rw [State.updateTop, memRead_unlessWild hc, unlessWild_bind, memWrite_unlessWild hc, unlessWild_unlessWild]; rfl

theorem jumpIf_unlessWild (taken : Bool) :
    s.jumpIf c taken =
      unlessWild .error [s.topAddr] (.ok ((popped s).setPc (if taken then s.top else s.pc + 1))) := by
  rw [State.jumpIf, pop_unlessWild hc, unlessWild_bind]
  cases taken <;> rfl

end Refusing

/-! ### One instruction, the fetch and the step under `refuse` -/

/-- The configuration with `ADDR_POLICY = wrap`. -/
abbrev wrapping (c : Config) : Config := { c with addrPolicy := .wrap }

/-- The configuration with `ADDR_POLICY = refuse`. -/
abbrev refusing (c : Config) : Config := { c with addrPolicy := .refuse }

/-- R56: the addresses an instruction accesses as data, in order. -/
def State.dataAddrs (s : State) (i : Instr) : List Word := s.readAddrs i ++ (s.writeAddr i).toList

/-- R56, R53: an instruction under `refuse` is the instruction under `wrap`, unless an address it accesses is wild. -/
theorem execAt_refusing (c : Config) (i : Instr) (s : State) :
    execAt (refusing c) i s = unlessWild .refused (s.dataAddrs i) (execAt (wrapping c) i s) := by
  have wrap : (wrapping c).addrPolicy = .wrap := rfl
  have refuse : (refusing c).addrPolicy = .refuse := rfl
  cases i with
  | push v =>
    simp only [execAt, execPushAt, push_wrap wrap, push_unlessWild refuse, unlessWild_bind, answer_unlessWild]; rfl
  | read =>
    simp only [execAt, execReadAt, pop_wrap wrap, memRead_wrap wrap, push_wrap wrap, pop_unlessWild refuse,
      memRead_unlessWild refuse, push_unlessWild refuse, unlessWild_bind, unlessWild_unlessWild, answer_unlessWild,
      popped_freeAddr]
    rfl
  | write =>
    simp only [execAt, execWriteAt, popTwo_wrap wrap, memWrite_wrap wrap, popTwo_unlessWild refuse,
      memWrite_unlessWild refuse, unlessWild_bind, unlessWild_unlessWild, answer_unlessWild]
    rfl
  | dup =>
    simp only [execAt, execDupAt, memRead_wrap wrap, push_wrap wrap, memRead_unlessWild refuse, push_unlessWild refuse,
      unlessWild_bind, unlessWild_unlessWild, answer_unlessWild]
    rfl
  | drop | hlt => rfl
  | out =>
    simp only [execAt, execOutAt, pop_wrap wrap, pop_unlessWild refuse, unlessWild_bind, answer_unlessWild]; rfl
  | cmp =>
    simp only [execAt, execCmpAt, popTwo_wrap wrap, popTwo_unlessWild refuse, unlessWild_bind, answer_unlessWild]; rfl
  | inc | dec =>
    simp only [execAt, execIncAt, execDecAt, updateTop_wrap wrap, updateTop_unlessWild refuse, unlessWild_bind,
      answer_unlessWild]
    rfl
  | add =>
    simp only [execAt, execAddAt, popTwo_wrap wrap, push_wrap wrap, popTwo_unlessWild refuse, push_unlessWild refuse,
      unlessWild_bind, unlessWild_unlessWild, answer_unlessWild, popped_freeAddr, popped_topAddr]
    rfl
  | jmp | je | jg | jl =>
    simp only [execAt, execJmpAt, execJeAt, execJgAt, execJlAt, jumpIf_wrap wrap, jumpIf_unlessWild refuse,
      answer_unlessWild]
    rfl

/-- R83, R87: the addresses a fetch accesses, in order. -/
def State.fetchAddrs (s : State) (c : Config) : List Word :=
  s.pc :: if decodeOpcode c (s.cell (cellIndex s.pc)) = some .push then [add32 s.pc 1] else []

theorem fetchCells_refusing (c : Config) (s : State) :
    s.fetchCells (refusing c) = unlessWild .error (s.fetchAddrs c) (s.fetchCells (wrapping c)) := by
  have refuse : (refusing c).addrPolicy = .refuse := rfl
  have wrap : (wrapping c).addrPolicy = .wrap := rfl
  by_cases hpush : decodeOpcode c (s.cell (cellIndex s.pc)) = some .push
  · have hwrap : decodeOpcode (wrapping c) (s.cell (cellIndex s.pc)) = some .push := hpush
    have hrefuse : decodeOpcode (refusing c) (s.cell (cellIndex s.pc)) = some .push := hpush
    rw [State.fetchAddrs, if_pos hpush, fetchCells_wrap wrap, if_pos hwrap]
    simp only [State.fetchCells, memRead_unlessWild refuse, unlessWild_bind, hrefuse, unlessWild_unlessWild]
    rfl
  · have hwrap : decodeOpcode (wrapping c) (s.cell (cellIndex s.pc)) ≠ some .push := hpush
    have hrefuse : decodeOpcode (refusing c) (s.cell (cellIndex s.pc)) ≠ some .push := hpush
    rw [State.fetchAddrs, if_neg hpush, fetchCells_wrap wrap, if_neg hwrap, State.fetchCells, memRead_unlessWild refuse,
      unlessWild_bind]
    split
    · contradiction
    · rfl

/-- R87, R53: the fetch under `refuse`. -/
theorem fetch_refusing (c : Config) (s : State) :
    fetch (refusing c) s = unlessWild .refused (s.fetchAddrs c) (fetch (wrapping c) s) := by
  have hcells := fetchCells_refusing c s
  cases hwild : wildIn (s.fetchAddrs c) with
  | none =>
    rw [unlessWild_of_none hwild] at hcells ⊢
    rw [fetch, hcells]; rfl
  | some a =>
    rw [unlessWild_of_some hwild] at hcells ⊢
    rw [fetch, hcells]

/-- R87: what a step of a running machine makes of the answer of its fetch; `cycle_of_running` ties it to the cycle. -/
def runFetched (run : Instr → State → StepOutcome) (s : State) (o : Host.Outcome Instr Fault Refusal) : StepOutcome :=
  match o with
  | .next i => run i s
  | .fault f => .fault f
  | .refused r => .refused r

theorem cycle_of_running {c : Config} {run : Instr → State → StepOutcome} {s : State} (hrun : s.isRunning = true) :
    cycle c run s = runFetched run s (fetch c s) := by
  rw [cycle, if_pos hrun]; rfl

/-- R87, R53: a step of a running machine under `refuse`, up to its fetch. -/
theorem stepAt_refusing_of_running (c : Config) {s : State} (hrun : s.isRunning = true) :
    stepAt (refusing c) s =
      unlessWild .refused (s.fetchAddrs c) (runFetched (execAt (refusing c)) s (fetch (wrapping c) s)) := by
  rw [stepAt, cycle_of_running hrun, fetch_refusing]
  exact apply_unlessWild (runFetched (execAt (refusing c)) s)

theorem stepAddrs_of_opcode {c : Config} {s : State} {m : Mnemonic} (hrun : s.isRunning = true)
    (h : decodeOpcode c (s.cell (cellIndex s.pc)) = some m) :
    stepAddrs c s = s.fetchAddrs c ++ s.dataAddrs (instrOf m (s.cell (cellIndex (add32 s.pc 1)))) := by
  simp [stepAddrs, State.fetchAddrs, State.dataAddrs, hrun, h]

theorem stepAddrs_of_no_opcode {c : Config} {s : State} (hrun : s.isRunning = true)
    (h : decodeOpcode c (s.cell (cellIndex s.pc)) = none) : stepAddrs c s = s.fetchAddrs c := by
  simp [stepAddrs, State.fetchAddrs, hrun, h]

theorem stepAddrs_of_halted {c : Config} {s : State} (h : s.isRunning = false) : stepAddrs c s = [] := by
  simp [stepAddrs, h]

theorem firstWildAddr_eq_wildIn (c : Config) (s : State) : firstWildAddr c s = wildIn (stepAddrs c s) := rfl

/-- R53: a step under `refuse` is the step under `wrap`, unless an address it accesses is wild. -/
theorem stepAt_refusing (c : Config) (s : State) :
    stepAt (refusing c) s = unlessWild .refused (stepAddrs c s) (stepAt (wrapping c) s) := by
  have wrap : (wrapping c).addrPolicy = .wrap := rfl
  cases hrun : s.isRunning with
  | false => rw [stepAddrs_of_halted hrun, unlessWild_nil, stepAt, stepAt, cycle_halted _ _ hrun, cycle_halted _ _ hrun]
  | true =>
    cases hdec : decodeOpcode c (s.cell (cellIndex s.pc)) with
    | none =>
      rw [stepAddrs_of_no_opcode hrun hdec, stepAt_refusing_of_running c hrun, stepAt, cycle_of_running hrun,
        fetch_of_no_opcode wrap hdec]
      rfl
    | some m =>
      rw [stepAddrs_of_opcode hrun hdec, stepAt_refusing_of_running c hrun, stepAt, cycle_of_running hrun,
        fetch_of_opcode wrap hdec, ← unlessWild_unlessWild]
      exact congrArg (unlessWild .refused (s.fetchAddrs c)) (execAt_refusing c _ s)

/-- Settles O38: a step under `refuse` accesses the step's addresses in their order until one is wild. -/
theorem refusePolicyOnlyRefusesWildAddresses : Obligations.RefusePolicyOnlyRefusesWildAddresses := by
  intro c s
  have hstep := stepAt_refusing c s
  rw [firstWildAddr_eq_wildIn]
  cases hwild : wildIn (stepAddrs c s) with
  | none => exact hstep.trans (unlessWild_of_none hwild)
  | some a => exact ⟨memSize_le_of_wildIn hwild, hstep.trans (unlessWild_of_some hwild)⟩

end Sys2Proof.Machine

/-! ## The decoder and the encoder (spec/30_encoding.md R80 to R86) -/

namespace Sys2Proof

/-- R81: the cells after the instruction word. -/
def Instr.operands : Instr → List Word
  | .push v => [v]
  | .read | .write | .dup | .drop | .jmp | .out | .cmp | .inc | .dec | .je | .jg | .add | .jl | .hlt => []

/-- R81, R108: an encoding is the instruction word and the operand cells. -/
theorem encode_eq (c : Config) (i : Instr) : encode c i = encodeOpcode c i.mnemonic :: i.operands := by
  cases i <;> rfl

theorem Instr.mnemonic_instrOf (m : Mnemonic) (v : Word) : (instrOf m v).mnemonic = m := by cases m <;> rfl

/-- R81: an instruction that is no PUSH has no operand cell, and is all its mnemonic says. -/
theorem Instr.eq_instrOf_of_ne_push {i : Instr} (h : i.mnemonic ≠ .push) (v : Word) :
    i = instrOf i.mnemonic v ∧ i.operands = [] := by
  cases i with
  | push => exact absurd rfl h
  | _ => exact ⟨rfl, rfl⟩

theorem Instr.eq_push_of_mnemonic {i : Instr} (h : i.mnemonic = .push) : ∃ v, i = .push v := by
  cases i with
  | push v => exact ⟨v, rfl⟩
  | _ => cases h

/-- R80 to R83: Words decode to an instruction exactly if the first has the code of its mnemonic and the next are its operand
cells. -/
theorem decode_eq_ok_iff {c : Config} {w : Word} {tail rest : List Word} {i : Instr} :
    decode c (w :: tail) = .ok (i, rest) ↔ decodeOpcode c w = some i.mnemonic ∧ tail = i.operands ++ rest := by
  constructor
  · intro h
    cases hcode : decodeOpcode c w with
    | none => simp [decode, hcode] at h
    | some m =>
      by_cases hm : m = .push
      · subst hm
        cases tail with
        | nil => simp [decode, hcode] at h
        | cons v tail => rw [Machine.decode_push hcode] at h; cases h; exact ⟨rfl, rfl⟩
      · rw [Machine.decode_plain tail hcode hm] at h
        cases h
        rw [← Instr.mnemonic_instrOf m 0] at hm
        rw [Instr.mnemonic_instrOf, ((instrOf m 0).eq_instrOf_of_ne_push hm 0).2]
        exact ⟨rfl, rfl⟩
  · rintro ⟨hcode, rfl⟩
    by_cases hm : i.mnemonic = .push
    · obtain ⟨v, rfl⟩ := Instr.eq_push_of_mnemonic hm
      exact Machine.decode_push hcode
    · obtain ⟨hi, hops⟩ := i.eq_instrOf_of_ne_push hm 0
      rw [Machine.decode_plain _ hcode hm, ← hi, hops]; rfl

/-- Settles O43: the first cell has the code of the mnemonic, and the others are the operand cells. -/
theorem decodeInvertsEncode : Obligations.DecodeInvertsEncode := by
  intro c i rest hc
  rw [encode_eq, List.cons_append, decode_eq_ok_iff]
  exact ⟨decodeOpcode_encodeOpcode hc i.mnemonic, rfl⟩

/-- Settles O44: the code of the mnemonic is the first Word's low bits. -/
theorem decodedWordsAreEncodingButForIgnoredBits : Obligations.DecodedWordsAreEncodingButForIgnoredBits := by
  intro c w tail rest i h
  obtain ⟨hcode, htail⟩ := decode_eq_ok_iff.1 h
  refine ⟨i.operands, ?_, htail⟩
  rw [encode_eq, encodeOpcode, code_of_decodeOpcode hcode]

/-- R80: `w[3:0] = w mod 16`. -/
theorem toNat_opcodeOf (w : Word) : (opcodeOf w).toNat = w.toNat % 16 := by
  rw [opcodeOf_eq]
  exact BitVec.toNat_setWidth 4 w

/-- R80: the opcode is read from the low four bits. -/
theorem opcodeOf_congr {w w' : Word} (h : w.toNat % 16 = w'.toNat % 16) : opcodeOf w = opcodeOf w' :=
  BitVec.eq_of_toNat_eq (by rw [toNat_opcodeOf, toNat_opcodeOf, h])

theorem toOption_eq_some_iff {ε α : Type} {x : Except ε α} {a : α} : x.toOption = some a ↔ x = .ok a := by
  cases x <;> simp [Except.toOption]

/-- Settles O45: whether Words decode to an instruction asks for the opcode of the first alone. -/
theorem decoderIgnoresUpperBits : Obligations.DecoderIgnoresUpperBits := by
  refine ⟨fun w => ⟨?_, toNat_opcodeOf w⟩, fun c w w' tail h => Option.ext fun ⟨i, rest⟩ => ?_⟩
  · rw [toNat_opcodeOf, extractBits, BitVec.toNat_ofNat]
    show w.toNat % 16 = w.toNat / 1 % 16 % 4294967296
    omega
  · have hdec : decodeOpcode c w = decodeOpcode c w' := by rw [decodeOpcode, opcodeOf_congr h, decodeOpcode]
    rw [toOption_eq_some_iff, toOption_eq_some_iff, decode_eq_ok_iff, decode_eq_ok_iff, hdec]

/-! ### The unassigned code -/

/-- R85: the codes of a numbering. -/
def Config.codes (c : Config) : Finset Opcode := (Mnemonic.all.map c.opc).toFinset

theorem Config.mem_codes {c : Config} {k : Opcode} : k ∈ c.codes ↔ ∃ m, c.opc m = k := by
  simp [Config.codes, Mnemonic.mem_all]

/-- R86: an injective numbering uses fifteen codes. -/
theorem Config.card_codes {c : Config} (hc : c.wf = true) : c.codes.card = 15 := by
  have hnodup : (Mnemonic.all.map c.opc).Nodup :=
    List.Nodup.map (fun _ _ h => c.opc_injective hc h) (by decide)
  rw [Config.codes, List.toFinset_card_of_nodup hnodup]
  rfl

theorem card_opcode : Fintype.card Opcode = 16 := by
  rw [Fintype.card_congr (BitVec.equivFin (m := 4)).toEquiv, Fintype.card_fin]; rfl

/-- R86: sixteen codes less fifteen leave one. -/
theorem exists_unassigned {c : Config} (hc : c.wf = true) : ∃ k : Opcode, ∀ k', (∀ m, c.opc m ≠ k') ↔ k' = k := by
  have hcard : c.codesᶜ.card = 1 := by rw [Finset.card_compl, card_opcode, c.card_codes hc]
  obtain ⟨k, hk⟩ := Finset.card_eq_one.1 hcard
  refine ⟨k, fun k' => ?_⟩
  rw [← Finset.mem_singleton, ← hk, Finset.mem_compl, Config.mem_codes, not_exists]

/-- R86: at the default numbering it is 15. -/
theorem unassigned_params_iff (k : Opcode) : (∀ m, Machine.params.opc m ≠ k) ↔ k = 15 := by
  obtain ⟨k₀, hk₀⟩ := exists_unassigned Machine.defaultOpc_wf
  have h15 : 15 = k₀ := (hk₀ 15).1 fun m => by cases m <;> decide
  rw [hk₀, h15]

/-- Settles O46: the one code outside the fifteen of the numbering. -/
theorem exactlyOneCodeIsUnassigned : Obligations.ExactlyOneCodeIsUnassigned := by
  refine ⟨fun c hc => ?_, unassigned_params_iff⟩
  obtain ⟨k, hk⟩ := exists_unassigned hc
  exact ⟨k, (hk k).2 rfl, fun k' => (hk k').1⟩

end Sys2Proof

/-! ## The step on decoded Words (spec/30_encoding.md R87, R88) -/

namespace Sys2Proof.Machine

/-- R85 at the default `OPC`. -/
theorem decodeOpcode_params_eq_none_iff (w : Word) : decodeOpcode params w = none ↔ w.toNat % 16 = 15 := by
  have hcodes : decodeOpcode params w = none ↔ ∀ m, params.opc m ≠ opcodeOf w := by
    simp [decodeOpcode, Mnemonic.mem_all]
  rw [hcodes, unassigned_params_iff, ← toNat_opcodeOf]
  exact BitVec.toNat_inj.symm

/-- Settles O28: the first Word holds the code of the instruction's mnemonic, the second PUSH's operand. -/
theorem stepRunsDecodedInstruction : Obligations.StepRunsDecodedInstruction := by
  intro s i rest hrun hdecode
  obtain ⟨hcode, htail⟩ := decode_eq_ok_iff.1 hdecode
  rw [step_of_opcode hrun (code_of_decodeOpcode hcode).symm]
  by_cases hm : i.mnemonic = .push
  · obtain ⟨v, rfl⟩ := Instr.eq_push_of_mnemonic hm
    rw [(List.cons.inj htail).1]; rfl
  · rw [← (i.eq_instrOf_of_ne_push hm _).1]

/-- Settles O29: 15 is the one code the fetch finds no mnemonic for, and no instruction raises a fault. -/
theorem invalidOpcodeExactlyOnUnassignedCode : Obligations.InvalidOpcodeExactlyOnUnassignedCode := by
  intro s hrun
  rw [← decodeOpcode_params_eq_none_iff]
  refine ⟨⟨fun hnone => ?_, fun hfault => ?_⟩, hostStep_of_no_opcode hrun⟩
  · rw [step, cycle_of_running hrun, fetch_of_no_opcode (c := params) rfl hnone]; rfl
  · cases hdec : decodeOpcode params (s.cell (cellIndex s.pc)) with
    | none => rfl
    | some m =>
      rw [step_of_opcode hrun (code_of_decodeOpcode hdec).symm, exec_eq_next] at hfault
      cases hfault

/-! ### Placing an instruction -/

theorem cellIndex_succ_ne (a : Word) : cellIndex (add32 a 1) ≠ cellIndex a := by
  have hone : (1 : Word).toNat = 1 := rfl
  rw [cellIndex, cellIndex, add32_toNat, memSize, hone]
  omega

section Placed

variable (s : State) (ws : Word × Word)

@[simp] theorem placeInstruction_pc : (s.placeInstruction ws).pc = s.pc := rfl

/-- R27: placing sets the running bit. -/
theorem placeInstruction_isRunning : (s.placeInstruction ws).isRunning = true := by
  simp [State.isRunning, State.placeInstruction, runningBit]

theorem placeInstruction_cell_pc : (s.placeInstruction ws).cell (cellIndex s.pc) = ws.1 := by
  rw [State.placeInstruction, State.setFlag_cell, State.cell_setCell, if_neg (cellIndex_succ_ne s.pc).symm,
    State.cell_setCell, if_pos rfl]

theorem placeInstruction_cell_operand : (s.placeInstruction ws).cell (cellIndex (add32 s.pc 1)) = ws.2 := by
  simp [State.placeInstruction]

end Placed

/-- What the decoder reads from a table word is what it reads from its two cells. -/
theorem decode_of_decodeTableWord {nbits w : Nat} {i : Instr} (h : decodeTableWord nbits w = some i) :
    ∃ rest, decode params [(tableWords nbits w).1, (tableWords nbits w).2] = .ok (i, rest) := by
  unfold decodeTableWord at h
  split at h
  · rename_i rest hdec; cases h; exact ⟨rest, hdec⟩
  · cases h

/-- Settles O40: the cells at `pc` of a running machine hold the table word's two Words. -/
theorem placedInstructionIsExecutedNext : Obligations.PlacedInstructionIsExecutedNext := by
  intro s nbits w i h
  obtain ⟨rest, hdec⟩ := decode_of_decodeTableWord h
  refine stepRunsDecodedInstruction _ i rest (placeInstruction_isRunning s _) ?_
  rw [State.withFetchWord, placeInstruction_pc, placeInstruction_cell_pc, placeInstruction_cell_operand, hdec]

/-- Settles O47: each Word is decoded as it stands. -/
theorem sampleWordsDecode : Obligations.SampleWordsDecode := by
  unfold Obligations.SampleWordsDecode
  decide

/-! ## Independence of the opcode numbering (spec/30_encoding.md R85) -/

open Sys2Proof.Safety

/-- R28: what an instruction leaves in `flag` under a pairing of CMP's results. -/
def State.flagAfter (s : State) (p : CmpPairing) (i : Instr) : Word :=
  match i with
  | .cmp => compareFlag p s.top s.second
  | .hlt => flagHalted
  | .push _ | .read | .write | .dup | .drop | .jmp | .out | .inc | .dec | .je | .jg | .add | .jl => s.flag

/-- R7, R53: under `wrap` the configuration reaches an instruction's meaning through CMP's pairing alone. -/
theorem execAt_wrap {c : Config} (hc : c.addrPolicy = .wrap) (i : Instr) (s : State) :
    execAt c i s = .next ((executed i s).setFlag (s.flagAfter c.cmpPairing i)) := by
  have hparams : execAt params i s = .next (executed i s) := (exec_eq_execAt i s).symm.trans (exec_eq_next i s)
  cases i with
  | cmp => simp only [execAt, execCmpAt, popTwo_wrap hc, bind, Except.bind]; rfl
  | _ =>
    obtain ⟨opc, policy, pairing, extra⟩ := c
    obtain rfl : policy = .wrap := hc
    exact hparams

theorem SameReads.flagAfter {i : Instr} {s s' : State} (h : SameReads i s s') (p : CmpPairing) :
    s'.flagAfter p i = s.flagAfter p i := by
  cases i with
  | cmp =>
    have hsecond : s.secondAddr ∈ s.readAddrs .cmp := List.mem_cons_of_mem _ List.mem_cons_self
    simp only [State.flagAfter, h.top List.mem_cons_self, h.second hsecond]
  | hlt => rfl
  | _ => exact h.flag

/-- R56: what the tabled cell holds afterwards is determined by the reads. -/
theorem SameReads.executed_cell {i : Instr} {s s' : State} (h : SameReads i s s') {a : Nat}
    (ha : s.dataWrite i = some a) : (executed i s').cell a = (executed i s).cell a := by
  apply Option.some.inj
  rw [executed_cell_of_dataWrite ha, executed_cell_of_dataWrite (h.dataWrite.trans ha), h.writtenWord]

section Renumbered

variable {c d : Config} {code : Nat → Prop} {s s' : State}

/-- R85: numberings are told apart in code cells alone, so an instruction that reads none finds the same. -/
theorem sameReads_of_sameButNumbering (h : sameButNumbering c d code s s') {i : Instr}
    (hreads : ∀ a ∈ s.dataReads i, ¬ code a) : SameReads i s s' := by
  obtain ⟨hpc, hsp, hflag, hout, hdata, -⟩ := h
  exact ⟨hpc, hsp, hflag, hout, fun a ha => hdata a (hreads a ha)⟩

/-- R85: an instruction that touches no code cell as data keeps the two machines alike. -/
theorem executed_keeps_sameButNumbering (h : sameButNumbering c d code s s') {i : Instr} (p : CmpPairing)
    (hreads : ∀ a ∈ s.dataReads i, ¬ code a) (hwrite : ∀ a, s.dataWrite i = some a → ¬ code a) :
    sameButNumbering c d code ((executed i s).setFlag (s.flagAfter p i)) ((executed i s').setFlag (s'.flagAfter p i)) := by
  have same := sameReads_of_sameButNumbering h hreads
  obtain ⟨-, -, -, -, hdata, hcode⟩ := h
  have hframe (a : Nat) (ha : s.dataWrite i ≠ some a) :
      (executed i s).cell a = s.cell a ∧ (executed i s').cell a = s'.cell a :=
    ⟨executed_cell_of_ne_dataWrite ha, executed_cell_of_ne_dataWrite (by rwa [same.dataWrite])⟩
  refine ⟨same.executed_pc, same.executed_sp, same.flagAfter p, same.executed_out, fun a ha => ?_, fun a ha => ?_⟩
  · rw [State.setFlag_cell, State.setFlag_cell]
    by_cases hwritten : s.dataWrite i = some a
    · exact same.executed_cell hwritten
    · obtain ⟨hs, hs'⟩ := hframe a hwritten
      rw [hs, hs', hdata a ha]
  · obtain ⟨hs, hs'⟩ := hframe a fun hwritten => hwrite a hwritten ha
    rw [State.setFlag_cell, State.setFlag_cell, hs, hs']
    exact hcode a ha

/-- R85, R87: where the next instruction word is renumbered and its operand cell is not, both machines fetch one instruction. -/
theorem fetch_of_sameButNumbering (hc : c.wf = true) (hd : d.wf = true) (hcw : c.addrPolicy = .wrap)
    (hdw : d.addrPolicy = .wrap) (h : sameButNumbering c d code s s') (hpc : code (cellIndex s.pc)) {i : Instr}
    (hi : fetch c s = .next i) (hoperand : ∀ v, i = .push v → ¬ code (cellIndex (add32 s.pc 1))) :
    fetch d s' = .next i := by
  obtain ⟨hpc', -, -, -, hdata, hcode⟩ := h
  obtain ⟨m, hm, hm'⟩ := hcode _ hpc
  rw [← hpc'] at hm'
  rw [fetch_of_opcode hdw (decodeOpcode_of_code hd hm'), ← hi, fetch_of_opcode hcw (decodeOpcode_of_code hc hm), hpc']
  rw [fetch_of_opcode hcw (decodeOpcode_of_code hc hm)] at hi
  obtain rfl := Host.Outcome.next.inj hi
  cases m with
  | push => rw [hdata _ (hoperand _ rfl)]
  | _ => rfl

end Renumbered

/-- Settles O39: both machines fetch the same instruction, which reads and writes the same data. -/
theorem opcodeNumberingIsImmaterial : Obligations.OpcodeNumberingIsImmaterial := by
  intro c d code s s' t i hc hd hcw hdw hpairing hsame hpc hfetch hoperand hreads hwrite hstep
  have hfetch' := fetch_of_sameButNumbering hc hd hcw hdw hsame hpc hfetch hoperand
  obtain ⟨hrun, j, hj, hexec⟩ := cycle_next hstep
  obtain rfl : i = j := Host.Outcome.next.inj (hfetch.symm.trans hj)
  obtain rfl := Host.Outcome.next.inj ((execAt_wrap hcw i s).symm.trans hexec)
  have hrun' : s'.isRunning = true := by
    obtain ⟨-, -, hflag, -⟩ := hsame
    rw [State.isRunning, hflag]; exact hrun
  refine ⟨_, ?_, executed_keeps_sameButNumbering hsame c.cmpPairing hreads hwrite⟩
  rw [stepAt, cycle_of_running hrun', hfetch', hpairing]
  exact execAt_wrap hdw i s'

end Sys2Proof.Machine

/-! ## The assembler (spec/30_encoding.md R91, R100 to R114) -/

namespace Sys2Proof.Machine

open Sys2Proof.Safety

/-! ### The passes as computations that may fail

Each walk over the lines is the sequence of its parts, so a walk over `xs ++ ys` is a walk over `xs` and then one over `ys`. -/

/-- A sequence answers exactly if both its parts do. -/
theorem bind_eq_ok_iff {ε α β : Type} {x : Except ε α} {f : α → Except ε β} {b : β} :
    (x >>= f) = .ok b ↔ ∃ a, x = .ok a ∧ f a = .ok b := by
  cases x <;> simp [bind, Except.bind]

section Passes

variable (c : Config) (st : Symbols)

theorem parseLines_cons (l : List Char) (ls : List (List Char)) :
    parseLines (l :: ls) = (do let x ← parseLine l; let xs ← parseLines ls; pure (x :: xs)) := by
  rw [parseLines]
  cases parseLine l with
  | error e => rfl
  | ok x => cases parseLines ls <;> rfl

theorem passOne_cons (line : SourceLine) (lines : List SourceLine) :
    passOne c st (line :: lines) = (do let st' ← passOneLine c st line; passOne c st' lines) := by
  rw [passOne]
  cases passOneLine c st line <;> rfl

theorem passTwo_cons (line : SourceLine) (lines : List SourceLine) :
    passTwo st (line :: lines) = (do let is ← passTwoLine st line; let js ← passTwo st lines; pure (is ++ js)) := by
  rw [passTwo]
  cases passTwoLine st line with
  | error e => rfl
  | ok is => cases passTwo st lines <;> rfl

theorem parseLines_append (ls ms : List (List Char)) :
    parseLines (ls ++ ms) = (do let xs ← parseLines ls; let ys ← parseLines ms; pure (xs ++ ys)) := by
  induction ls with
  | nil => exact (bind_pure (parseLines ms)).symm
  | cons l ls ih => simp [parseLines_cons, ih]

theorem passOne_append (xs ys : List SourceLine) :
    passOne c st (xs ++ ys) = (do let st' ← passOne c st xs; passOne c st' ys) := by
  induction xs generalizing st with
  | nil => rfl
  | cons x xs ih => simp [passOne_cons, ih]

theorem passTwo_append (xs ys : List SourceLine) :
    passTwo st (xs ++ ys) = (do let is ← passTwo st xs; let js ← passTwo st ys; pure (is ++ js)) := by
  induction xs with
  | nil => exact (bind_pure (passTwo st ys)).symm
  | cons x xs ih =>
    simp only [List.cons_append, passTwo_cons, ih, bind_assoc, pure_bind, List.append_assoc]

end Passes

/-- R100: the array as `load` takes it. -/
def PlacedArray.literal (a : PlacedArray) : ArrayLit := ⟨a.name, BitVec.ofNat wordBits a.start, a.values⟩

/-- R100: both passes, then the encoding of what pass 2 appended beside the arrays pass 1 placed. -/
theorem assembleLines_eq (c : Config) (lines : List SourceLine) :
    assembleLines c lines = (do
      let st ← passOne c Symbols.initial lines
      let is ← passTwo st lines
      pure { instructions := encodeAll c is, arrays := st.arrays.map PlacedArray.literal }) := by
  rw [assembleLines]
  cases passOne c Symbols.initial lines with
  | error e => rfl
  | ok st => simp only [bind, Except.bind]; cases passTwo st lines <;> rfl

theorem assemble_eq (c : Config) (source : List String) :
    assemble c source = parseLines (source.map String.toList) >>= assembleLines c := by
  rw [assemble]
  cases parseLines (source.map String.toList) <;> rfl

/-- R100: an image comes from both passes. -/
theorem assembleLines_eq_ok_iff {c : Config} {lines : List SourceLine} {img : LoadImage} :
    assembleLines c lines = .ok img ↔ ∃ st, passOne c Symbols.initial lines = .ok st ∧
      ∃ is, passTwo st lines = .ok is ∧
        { instructions := encodeAll c is, arrays := st.arrays.map PlacedArray.literal } = img := by
  simp only [assembleLines_eq, bind_eq_ok_iff]
  simp only [pure, Except.pure, Except.ok.injEq]

/-! ### Ignored lines (R101) -/

theorem tokens_cons_of_isSpace {ch : Char} (h : isSpace ch = true) (rest : List Char) :
    tokens (ch :: rest) = tokens rest := by
  simp [tokens, splitBy, h]

theorem tokens_of_forall_isSpace {line : List Char} (h : ∀ ch ∈ line, isSpace ch = true) : tokens line = [] := by
  induction line with
  | nil => rfl
  | cons ch rest ih =>
    rw [tokens_cons_of_isSpace (h ch List.mem_cons_self)]
    exact ih fun x hx => h x (List.mem_cons_of_mem _ hx)

/-- R101: a line of white space, or one that begins with `//`, is of a class that is ignored. -/
theorem parseLine_of_ignored {line : List Char}
    (h : line.take 2 = ['/', '/'] ∨ ∀ ch ∈ line, isSpace ch = true) :
    ∃ x, parseLine line = .ok x ∧ (x = .blank ∨ x = .comment) := by
  rcases h with hcomment | hspace
  · cases htokens : tokens line with
    | nil => exact ⟨.blank, by rw [parseLine, htokens], .inl rfl⟩
    | cons t rest => exact ⟨.comment, by simp [parseLine, htokens, hcomment], .inr rfl⟩
  · exact ⟨.blank, by rw [parseLine, tokens_of_forall_isSpace hspace], .inl rfl⟩

/-- R101: neither pass does anything with an ignored line. -/
theorem assembleLines_ignored (c : Config) (xs ys : List SourceLine) {x : SourceLine} (hx : x = .blank ∨ x = .comment) :
    assembleLines c (xs ++ x :: ys) = assembleLines c (xs ++ ys) := by
  have hone (st : Symbols) : passOne c st (x :: ys) = passOne c st ys := by
    rcases hx with rfl | rfl <;> rfl
  have htwo (st : Symbols) : passTwo st (x :: ys) = passTwo st ys := by
    have hnothing : passTwoLine st x = .ok [] := by rcases hx with rfl | rfl <;> rfl
    rw [passTwo_cons, hnothing]
    exact bind_pure (passTwo st ys)
  simp only [assembleLines_eq, passOne_append, passTwo_append, hone, htwo]

/-- Settles O58: an ignored line is read as one, and both passes skip it. -/
theorem blankAndCommentLinesAreIgnored : Obligations.BlankAndCommentLinesAreIgnored := by
  intro c before after l hl
  obtain ⟨x, hparse, hx⟩ := parseLine_of_ignored hl
  have hskip : parseLines (l.toList :: after.map String.toList) =
      (parseLines (after.map String.toList) >>= fun ys => pure (x :: ys)) := by
    rw [parseLines_cons, hparse]; rfl
  simp [assemble_eq, parseLines_append, hskip, assembleLines_ignored c _ _ hx]

/-! ### What pass 1 does with a line (R104 to R107) -/

section PassOne

variable {c : Config} {st st' : Symbols} {line : SourceLine} {lines : List SourceLine}

theorem declares_eq_false_iff {n : Name} :
    st.declares n = false ↔ st.labelAddr n = none ∧ st.arrayStart n = none := by
  simp [Symbols.declares]

/-- R105, R117 (e): a label line binds a new name to the counter. -/
theorem passOneLine_label_eq_ok_iff {n : Name} :
    passOneLine c st (.label n) = .ok st' ↔
      (st.labelAddr n = none ∧ st.arrayStart n = none) ∧ { st with labels := st.labels ++ [(n, st.ia)] } = st' := by
  rw [← declares_eq_false_iff]
  cases h : st.declares n <;> simp [passOneLine, h]

/-- R106, R117 (e): an array line places a new name at the cursor. -/
theorem passOneLine_array_eq_ok_iff {n : Name} {vs : List Word} :
    passOneLine c st (.array n vs) = .ok st' ↔
      (st.labelAddr n = none ∧ st.arrayStart n = none) ∧ st.ac < 2 ^ wordBits ∧
      { st with ac := st.ac + vs.length + arrayGap, arrays := st.arrays ++ [⟨n, st.ac, vs⟩] } = st' := by
  rw [← declares_eq_false_iff]
  cases h : st.declares n
  · by_cases hac : st.ac < 4294967296 <;> simp [passOneLine, h, hac]
  · simp [passOneLine, h]

/-- R104: how far a line advances the instruction address counter. -/
def lineLength (c : Config) (line : SourceLine) : Nat :=
  match line with
  | .instr i => asmLength c i
  | .blank | .comment | .label _ | .array _ _ => 0

theorem passOneLine_ia (h : passOneLine c st line = .ok st') : st'.ia = st.ia + lineLength c line := by
  cases line with
  | blank | comment | instr => cases h; rfl
  | label n => obtain ⟨-, rfl⟩ := passOneLine_label_eq_ok_iff.1 h; rfl
  | array n vs => obtain ⟨-, -, rfl⟩ := passOneLine_array_eq_ok_iff.1 h; rfl

/-- R105: a name is bound where it was, or else by its label line. -/
theorem passOneLine_labelAddr (h : passOneLine c st line = .ok st') (l : Name) :
    st'.labelAddr l = (st.labelAddr l).or (if line = .label l then some st.ia else none) := by
  cases line with
  | blank | comment | instr => cases h; exact (Option.or_none).symm
  | label n =>
    obtain ⟨-, rfl⟩ := passOneLine_label_eq_ok_iff.1 h
    rw [Symbols.labelAddr, List.find?_append, Option.map_or, Symbols.labelAddr]
    by_cases hn : n = l <;> simp [hn]
  | array n vs => obtain ⟨-, -, rfl⟩ := passOneLine_array_eq_ok_iff.1 h; exact (Option.or_none).symm

/-- R106: a line that is no array line leaves the arrays and the cursor; an array line adds its array at the cursor, which
goes past its end and the gap. -/
theorem passOneLine_arrays (h : passOneLine c st line = .ok st') :
    (arrayOfLine line = none ∧ st'.arrays = st.arrays ∧ st'.ac = st.ac) ∨
    ∃ r : PlacedArray, arrayOfLine line = some (r.name, r.values) ∧ r.start = st.ac ∧ st.arrayStart r.name = none ∧
      r.start < 2 ^ 32 ∧ st'.arrays = st.arrays ++ [r] ∧ st'.ac = r.start + r.values.length + 3 := by
  cases line with
  | blank | comment | instr => cases h; exact .inl ⟨rfl, rfl, rfl⟩
  | label n => obtain ⟨-, rfl⟩ := passOneLine_label_eq_ok_iff.1 h; exact .inl ⟨rfl, rfl, rfl⟩
  | array n vs =>
    obtain ⟨⟨-, hnew⟩, hac, rfl⟩ := passOneLine_array_eq_ok_iff.1 h
    exact .inr ⟨⟨n, st.ac, vs⟩, rfl, rfl, hnew, hac, rfl, rfl⟩

/-- R103: pass 1 with a first line. -/
theorem passOne_cons_eq_ok_iff :
    passOne c st (line :: lines) = .ok st' ↔ ∃ u, passOneLine c st line = .ok u ∧ passOne c u lines = .ok st' := by
  rw [passOne_cons, bind_eq_ok_iff]

/-- R103: what every line keeps, pass 1 keeps. -/
theorem passOne_keeps {P : Symbols → Prop}
    (hline : ∀ line ∈ lines, ∀ st st', passOneLine c st line = .ok st' → P st → P st')
    (h : passOne c st lines = .ok st') (hst : P st) : P st' := by
  induction lines generalizing st with
  | nil => cases h; exact hst
  | cons line rest ih =>
    obtain ⟨u, hu, hrest⟩ := passOne_cons_eq_ok_iff.1 h
    exact ih (fun x hx => hline x (List.mem_cons_of_mem _ hx)) hrest (hline line List.mem_cons_self st u hu hst)

/-- R105: a bound label stays bound. -/
theorem passOne_keeps_labelAddr (h : passOne c st lines = .ok st') {l : Name} {a : Nat} (hl : st.labelAddr l = some a) :
    st'.labelAddr l = some a := by
  refine passOne_keeps (P := fun st => st.labelAddr l = some a) (fun line _ st st' hline hst => ?_) h hl
  rw [passOneLine_labelAddr hline, hst, Option.some_or]

/-- R112: a label that no line defines stays unbound. -/
theorem passOne_keeps_labelAddr_none (h : passOne c st lines = .ok st') {l : Name} (hl : .label l ∉ lines)
    (hst : st.labelAddr l = none) : st'.labelAddr l = none := by
  refine passOne_keeps (P := fun st => st.labelAddr l = none) (fun line hmem st st' hline hst => ?_) h hst
  have hne : line ≠ .label l := fun heq => hl (heq ▸ hmem)
  rw [passOneLine_labelAddr hline, hst, if_neg hne, Option.none_or]

/-- R112: after pass 1 over lines that do not define it a label is unbound. -/
theorem passOne_unbound {l : Name} (h : passOne c Symbols.initial lines = .ok st) (hl : .label l ∉ lines) :
    st.labelAddr l = none := passOne_keeps_labelAddr_none h hl rfl

/-! ### Where the arrays stand (R106) -/

/-- R106: the arrays stand one after the other from `start`, three cells apart, and leave the cursor at `cursor`. -/
def LaidOut (start : Nat) (arrays : List PlacedArray) (cursor : Nat) : Prop :=
  match arrays with
  | [] => cursor = start
  | r :: rest => r.start = start ∧ LaidOut (start + r.values.length + 3) rest cursor

theorem LaidOut.snoc {start cursor : Nat} {arrays : List PlacedArray} (h : LaidOut start arrays cursor) {r : PlacedArray}
    (hr : r.start = cursor) : LaidOut start (arrays ++ [r]) (r.start + r.values.length + 3) := by
  induction arrays generalizing start with
  | nil =>
    obtain rfl : cursor = start := h
    exact ⟨hr, by rw [hr]; rfl⟩
  | cons q rest ih => exact ⟨h.1, ih h.2⟩

theorem LaidOut.start_eq {start cursor : Nat} {arrays : List PlacedArray} (h : LaidOut start arrays cursor)
    {r : PlacedArray} (hr : arrays[0]? = some r) : r.start = start := by
  cases arrays with
  | nil => cases hr
  | cons q rest => cases hr; exact h.1

theorem LaidOut.next_start {start cursor : Nat} {arrays : List PlacedArray} (h : LaidOut start arrays cursor) {k : Nat}
    {r q : PlacedArray} (hr : arrays[k]? = some r) (hq : arrays[k + 1]? = some q) :
    q.start = r.start + r.values.length + 3 := by
  induction k generalizing start arrays with
  | zero =>
    cases arrays with
    | nil => cases hr
    | cons p rest =>
      cases hr
      rw [h.1]
      exact h.2.start_eq hq
  | succ k ih =>
    cases arrays with
    | nil => cases hr
    | cons p rest => exact ih h.2 hr hq

theorem passOne_laidOut (h : passOne c Symbols.initial lines = .ok st) : LaidOut 88 st.arrays st.ac := by
  refine passOne_keeps (P := fun st => LaidOut 88 st.arrays st.ac) (fun line _ st st' hline hst => ?_) h rfl
  rcases passOneLine_arrays hline with ⟨-, harrays, hac⟩ | ⟨r, -, hr, -, -, harrays, hac⟩
  · rwa [harrays, hac]
  · rw [harrays, hac]; exact hst.snoc hr

/-- R106: pass 1 adds the arrays of the lines, in order. -/
theorem passOne_arrays (h : passOne c st lines = .ok st') :
    st'.arrays.map (fun r => (r.name, r.values)) =
      st.arrays.map (fun r => (r.name, r.values)) ++ lines.filterMap arrayOfLine := by
  induction lines generalizing st with
  | nil => cases h; simp
  | cons line rest ih =>
    obtain ⟨u, hu, hrest⟩ := passOne_cons_eq_ok_iff.1 h
    rw [ih hrest]
    rcases passOneLine_arrays hu with ⟨hnone, harrays, -⟩ | ⟨r, hsome, -, -, -, harrays, -⟩
    · rw [harrays, List.filterMap_cons_none hnone]
    · rw [harrays, List.filterMap_cons_some hsome]; simp

/-- R106, R117 (e): every placed array is the one its name finds, and its start is a Word. -/
def Symbols.ArraysFound (st : Symbols) : Prop := ∀ r ∈ st.arrays, st.arrayStart r.name = some r.start ∧ r.start < 2 ^ 32

/-- R106: a name finds the array it found, or else the one added for it. -/
theorem arrayStart_of_append {r : PlacedArray} (h : st'.arrays = st.arrays ++ [r]) (n : Name) :
    st'.arrayStart n = (st.arrayStart n).or (if r.name = n then some r.start else none) := by
  rw [Symbols.arrayStart, h, List.find?_append, Option.map_or, Symbols.arrayStart]
  by_cases hn : r.name = n <;> simp [hn]

theorem passOneLine_keeps_arraysFound (h : passOneLine c st line = .ok st') (hst : st.ArraysFound) : st'.ArraysFound := by
  intro q hq
  rcases passOneLine_arrays h with ⟨-, harrays, -⟩ | ⟨r, -, -, hnew, hlt, harrays, -⟩
  · rw [harrays] at hq
    rw [Symbols.arrayStart, harrays]
    exact hst q hq
  · rw [arrayStart_of_append harrays]
    rw [harrays] at hq
    rcases List.mem_append.1 hq with hq | hq
    · obtain ⟨hfound, hword⟩ := hst q hq
      exact ⟨by rw [hfound, Option.some_or], hword⟩
    · obtain rfl := List.mem_singleton.1 hq
      exact ⟨by rw [hnew, Option.none_or, if_pos rfl], hlt⟩

theorem passOne_arraysFound (h : passOne c Symbols.initial lines = .ok st) : st.ArraysFound :=
  passOne_keeps (fun _ _ _ _ => passOneLine_keeps_arraysFound) h (fun _ hr => nomatch hr)

end PassOne

/-- Settles O56: pass 1 lays the arrays of the lines out from 88. -/
theorem arraysPlacedWithGaps : Obligations.ArraysPlacedWithGaps := by
  intro c lines st h
  have hlaid := passOne_laidOut h
  exact ⟨passOne_arrays h, fun r hr => hlaid.start_eq hr, fun k r q hr hq => hlaid.next_start hr hq⟩

/-! ### What pass 2 emits for a line (R108 to R113) -/

section PassTwo

variable {c : Config} {st : Symbols} {line : SourceLine} {lines : List SourceLine} {is : List Instr}

/-- A number below 2^32 is the value of its Word. -/
theorem toNat_ofNat_word {a : Nat} (h : a < 2 ^ wordBits) : (BitVec.ofNat wordBits a).toNat = a :=
  (BitVec.toNat_ofNat _ _).trans (Nat.mod_eq_of_lt h)

/-- R117 (d): a number that is a Word is that Word; another is rejected. -/
theorem word_or_error_eq_ok_iff {a : Nat} {e : AsmError} {v : Word} :
    (if a < 2 ^ wordBits then Except.ok (BitVec.ofNat wordBits a) else Except.error e) = .ok v ↔ v.toNat = a := by
  split
  · rename_i hlt
    rw [Except.ok.injEq]
    constructor
    · rintro rfl; exact toNat_ofNat_word hlt
    · rintro rfl; exact BitVec.eq_of_toNat_eq (toNat_ofNat_word hlt)
  · rename_i hge
    simp only [reduceCtorEq, false_iff]
    rintro rfl
    exact hge v.isLt

/-- R112: a label stands for the address it is bound to. -/
theorem labelWord_eq_ok_iff {l : Name} {v : Word} : labelWord st l = .ok v ↔ st.labelAddr l = some v.toNat := by
  cases hl : st.labelAddr l with
  | none => simp [labelWord, hl]
  | some a => simp only [labelWord, hl, word_or_error_eq_ok_iff, Option.some.injEq, eq_comm (a := a)]

/-- R110: a bare array name stands for 88. -/
theorem operandWord_arrayName_eq_ok_iff {n : Name} {v : Word} :
    operandWord st (.arrayName n) = .ok v ↔ (st.arrayStart n).isSome = true ∧ v = 88 := by
  cases hn : (st.arrayStart n).isSome with
  | false => simp [operandWord, hn]
  | true =>
    have h88 : operandWord st (.arrayName n) = .ok 88 := by rw [operandWord, hn]; rfl
    rw [h88, Except.ok.injEq, eq_comm, and_iff_right rfl]

/-- R111: `name+k` stands for the array's start plus `k`. -/
theorem operandWord_arrayOffset_eq_ok_iff {n : Name} {k : Nat} {v : Word} :
    operandWord st (.arrayOffset n k) = .ok v ↔ ∃ a, st.arrayStart n = some a ∧ v.toNat = a + k := by
  cases hn : st.arrayStart n with
  | none => simp [operandWord, hn]
  | some a => simp only [operandWord, hn, word_or_error_eq_ok_iff, Option.some.injEq, exists_eq_left']

/-- R109: a PUSH line emits one PUSH, of the Word its operand stands for. -/
theorem passTwoLine_push_eq_ok_iff {o : AsmOperand} :
    passTwoLine st (.instr (.push o)) = .ok is ↔ ∃ v, operandWord st o = .ok v ∧ [.push v] = is := by
  cases h : operandWord st o <;> simp [passTwoLine, lineInstrs, h]

/-- R112: a jump line emits a PUSH of the Word its label stands for, and the jump. -/
theorem passTwoLine_jump_eq_ok_iff {j : Jump} {l : Name} :
    passTwoLine st (.instr (.jump j l)) = .ok is ↔ ∃ v, labelWord st l = .ok v ∧ [.push v, j.instr] = is := by
  cases h : labelWord st l <;> simp [passTwoLine, lineInstrs, h]

/-- R112, R114: a jump line to an unbound label fails. -/
theorem passTwoLine_of_unbound (j : Jump) {l : Name} (hl : st.labelAddr l = none) :
    passTwoLine st (.instr (.jump j l)) = .error (.undefinedLabel l) := by
  simp [passTwoLine, lineInstrs, labelWord, hl]

/-- R108 to R113: what pass 2 appends for a line is what the line emits. -/
theorem passTwoLine_emits (h : passTwoLine st line = .ok is) : lineEmits st line is := by
  cases line with
  | instr i =>
    cases i with
    | push o =>
      obtain ⟨v, hv, rfl⟩ := passTwoLine_push_eq_ok_iff.1 h
      cases o with
      | literal w => cases hv; rfl
      | arrayName n =>
        obtain ⟨hn, rfl⟩ := operandWord_arrayName_eq_ok_iff.1 hv
        exact ⟨hn, rfl⟩
      | arrayOffset n k =>
        obtain ⟨a, hn, ha⟩ := operandWord_arrayOffset_eq_ok_iff.1 hv
        exact ⟨a, v, hn, ha, rfl⟩
      | badIncrease t => cases hv
    | jump j l =>
      obtain ⟨v, hv, rfl⟩ := passTwoLine_jump_eq_ok_iff.1 h
      exact ⟨v.toNat, v, labelWord_eq_ok_iff.1 hv, rfl, rfl⟩
    | plain p => cases h; rfl
  | blank | comment | label | array => cases h; rfl

/-- R108: what pass 2 appends is what each line emits, in line order. -/
theorem passTwo_emits (h : passTwo st lines = .ok is) :
    ∃ iss, List.Forall₂ (lineEmits st) lines iss ∧ is = iss.flatten := by
  induction lines generalizing is with
  | nil => cases h; exact ⟨[], .nil, rfl⟩
  | cons line rest ih =>
    rw [passTwo_cons, bind_eq_ok_iff] at h
    obtain ⟨js, hline, h⟩ := h
    obtain ⟨ks, hrest, h⟩ := bind_eq_ok_iff.1 h
    obtain ⟨iss, hall, rfl⟩ := ih hrest
    cases h
    exact ⟨js :: iss, .cons (passTwoLine_emits hline) hall, rfl⟩

/-- R114: a line that fails, fails pass 2 where the lines before it do not. -/
theorem passTwo_of_failing_line {e : AsmError} (h : passTwo st lines = .ok is) (hline : passTwoLine st line = .error e)
    (after : List SourceLine) : passTwo st (lines ++ line :: after) = .error e := by
  rw [passTwo_append, passTwo_cons, h, hline]; rfl

/-- R100: an array whose start is a Word is handed to `load` as pass 1 placed it. -/
theorem literal_fields {r : PlacedArray} (h : r.start < 2 ^ 32) :
    (r.literal.name, r.literal.start.toNat, r.literal.values) = (r.name, r.start, r.values) := by
  rw [PlacedArray.literal, toNat_ofNat_word h]

/-! ### Mnemonics and lengths (R82, R91, R104, R107) -/

/-- R91: what a line emits has the line's mnemonics. -/
theorem map_mnemonic_of_lineEmits (h : lineEmits st line is) : is.map Instr.mnemonic = lineMnemonics line := by
  cases line with
  | instr i =>
    cases i with
    | push o =>
      cases o with
      | literal v => obtain rfl : is = [.push v] := h; rfl
      | arrayName n => obtain ⟨-, rfl⟩ := h; rfl
      | arrayOffset n k => obtain ⟨a, v, -, -, rfl⟩ := h; rfl
      | badIncrease t => exact h.elim
    | jump j l => obtain ⟨a, v, -, -, rfl⟩ := h; rfl
    | plain p => obtain rfl : is = [p.instr] := h; rfl
  | blank | comment | label | array => obtain rfl : is = [] := h; rfl

/-- R91: what the lines emit has the lines' mnemonics, in order. -/
theorem map_mnemonic_flatten {iss : List (List Instr)} (h : List.Forall₂ (lineEmits st) lines iss) :
    iss.flatten.map Instr.mnemonic = lines.flatMap lineMnemonics := by
  induction h with
  | nil => rfl
  | cons hline _ ih => rw [List.flatten_cons, List.map_append, map_mnemonic_of_lineEmits hline, ih, List.flatMap_cons]

theorem passTwo_mnemonics (h : passTwo st lines = .ok is) : is.map Instr.mnemonic = lines.flatMap lineMnemonics := by
  obtain ⟨iss, hall, rfl⟩ := passTwo_emits h
  exact map_mnemonic_flatten hall

/-- R82: an instruction is as many Words as its mnemonic's cells. -/
theorem length_encode (c : Config) (i : Instr) : (encode c i).length = i.mnemonic.cells := by cases i <;> rfl

/-- R82: how many Words instructions of given mnemonics take. -/
def wordCount (ms : List Mnemonic) : Nat := (ms.map Mnemonic.cells).sum

theorem wordCount_append (ms ns : List Mnemonic) : wordCount (ms ++ ns) = wordCount ms + wordCount ns := by
  simp [wordCount]

theorem length_encodeAll (c : Config) (is : List Instr) : (encodeAll c is).length = wordCount (is.map Instr.mnemonic) := by
  induction is with
  | nil => rfl
  | cons i rest ih => rw [encodeAll, List.length_append, length_encode, ih]; rfl

/-- R107: how many Words pass 1 leaves uncounted in lines: one a `JMP` line, under `ASM_JMP_EXTRA = false`. -/
def uncounted (c : Config) (lines : List SourceLine) : Nat := if c.asmJmpExtra then 0 else lines.countP isJmpLine

theorem uncounted_cons (c : Config) (line : SourceLine) (lines : List SourceLine) :
    uncounted c (line :: lines) = uncounted c [line] + uncounted c lines := by
  cases h : c.asmJmpExtra <;> simp [uncounted, h, List.countP_cons, Nat.add_comm]

/-- R107: only a `JMP` line leaves a Word uncounted. -/
theorem uncounted_singleton_of_not_jmp (c : Config) (h : isJmpLine line = false) : uncounted c [line] = 0 := by
  simp [uncounted, h]

/-- R104, R107: the length pass 1 counts for a line, with what it leaves uncounted, is what the line takes. -/
theorem lineLength_add_uncounted (c : Config) (line : SourceLine) :
    lineLength c line + uncounted c [line] = wordCount (lineMnemonics line) := by
  cases line with
  | instr i =>
    cases i with
    | push o => rw [uncounted_singleton_of_not_jmp c rfl]; rfl
    | jump j l =>
      cases j with
      | jmp => cases h : c.asmJmpExtra <;> simp [lineLength, asmLength, uncounted, h] <;> rfl
      | je | jg | jl => rw [uncounted_singleton_of_not_jmp c rfl]; rfl
    | plain p =>
      rw [uncounted_singleton_of_not_jmp c rfl]
      cases p <;> rfl
  | blank | comment | label | array => rw [uncounted_singleton_of_not_jmp c rfl]; rfl

/-- R104, R107: pass 1 advances the counter by the Words the lines take, less those it leaves uncounted. -/
theorem passOne_ia {st' : Symbols} (h : passOne c st lines = .ok st') :
    st'.ia + uncounted c lines = st.ia + wordCount (lines.flatMap lineMnemonics) := by
  induction lines generalizing st with
  | nil => cases h; simp [uncounted, wordCount]
  | cons line rest ih =>
    obtain ⟨u, hu, hrest⟩ := passOne_cons_eq_ok_iff.1 h
    have hia := passOneLine_ia hu
    have hline := lineLength_add_uncounted c line
    rw [uncounted_cons, List.flatMap_cons, wordCount_append]
    have := ih hrest
    omega

/-- R105: a label line binds its name to the counter, to the end of pass 1. -/
theorem passOne_labelAddr {st' : Symbols} {before after : List SourceLine} {l : Name}
    (h : passOne c st (before ++ .label l :: after) = .ok st') :
    ∃ u, passOne c st before = .ok u ∧ st'.labelAddr l = some u.ia := by
  rw [passOne_append, bind_eq_ok_iff] at h
  obtain ⟨u, hbefore, h⟩ := h
  obtain ⟨v, hlabel, hafter⟩ := passOne_cons_eq_ok_iff.1 h
  refine ⟨u, hbefore, passOne_keeps_labelAddr hafter ?_⟩
  obtain ⟨⟨hnew, -⟩, -⟩ := passOneLine_label_eq_ok_iff.1 hlabel
  rw [passOneLine_labelAddr hlabel, hnew, Option.none_or, if_pos rfl]

/-! ### Listing an assembled stream (R91) -/

theorem listingUpTo_of_decode {n : Nat} {ws rest : List Word} {i : Instr} (hdecode : decode c ws = .ok (i, rest))
    (hrest : listingUpTo c n rest = .ok is) : listingUpTo c (n + 1) ws = .ok (i :: is) := by
  cases ws with
  | nil => cases hdecode
  | cons w ws => simp only [listingUpTo, hdecode, hrest]

/-- R91: walking an encoded list of instructions, with a bound no less than its Words, reads the list back. -/
theorem listingUpTo_encodeAll (hc : c.wf = true) {n : Nat} (h : (encodeAll c is).length ≤ n) :
    listingUpTo c n (encodeAll c is) = .ok is := by
  induction is generalizing n with
  | nil => cases n <;> rfl
  | cons i rest ih =>
    rw [encodeAll, List.length_append, encode_eq, List.length_cons] at h
    cases n with
    | zero => omega
    | succ n => exact listingUpTo_of_decode (decodeInvertsEncode c i _ hc) (ih (by omega))

end PassTwo

/-! ### Both passes -/

/-- Settles O59: a placed array is the one its name finds. -/
theorem arrayOperandsResolve : Obligations.ArrayOperandsResolve := by
  intro c lines st r h hr
  obtain ⟨hfound, -⟩ := passOne_arraysFound h r hr
  refine ⟨operandWord_arrayName_eq_ok_iff.2 ⟨by rw [hfound]; rfl, rfl⟩, fun k hk => ?_⟩
  have hv : (BitVec.ofNat wordBits (r.start + k)).toNat = r.start + k := toNat_ofNat_word hk
  exact ⟨_, operandWord_arrayOffset_eq_ok_iff.2 ⟨_, hfound, hv⟩, hv⟩

/-- Settles O60: the stream is what the lines emit, encoded, and the arrays are those of pass 1. -/
theorem emittedOperandsAreLiteralsAndAddresses : Obligations.EmittedOperandsAreLiteralsAndAddresses := by
  intro c lines img h
  obtain ⟨st, hone, is, htwo, rfl⟩ := assembleLines_eq_ok_iff.1 h
  obtain ⟨iss, hall, rfl⟩ := passTwo_emits htwo
  refine ⟨st, iss, hone, hall, rfl, ?_⟩
  rw [List.map_map]
  exact List.map_congr_left fun r hr => literal_fields (passOne_arraysFound hone r hr).2

/-- Settles O57: the label is unbound after pass 1, so its jump line fails pass 2. -/
theorem undefinedLabelFailsAssembly : Obligations.UndefinedLabelFailsAssembly := by
  refine ⟨fun c lines j l hjump hl img h => ?_, fun c before after j l st is hl hone htwo => ?_⟩
  · obtain ⟨st, hone, is, htwo, -⟩ := assembleLines_eq_ok_iff.1 h
    obtain ⟨before, after, rfl⟩ := List.append_of_mem hjump
    rw [passTwo_append, passTwo_cons, passTwoLine_of_unbound j (passOne_unbound hone hl)] at htwo
    obtain ⟨_, _, hfail⟩ := bind_eq_ok_iff.1 htwo
    cases hfail
  · have hfail := passTwo_of_failing_line htwo (passTwoLine_of_unbound j (passOne_unbound hone hl)) after
    simp only [assembleLines_eq, hone, hfail, bind, Except.bind]

/-- Settles O54: the label is bound to the counter, which the Words of the lines before it have advanced. -/
theorem labelAddressIsWordsEmittedBefore : Obligations.LabelAddressIsWordsEmittedBefore := by
  intro c before after l st is hone htwo
  obtain ⟨u, hbefore, hl⟩ := passOne_labelAddr hone
  refine ⟨u.ia, hl, ?_⟩
  calc u.ia + uncounted c before
      = Symbols.initial.ia + wordCount (before.flatMap lineMnemonics) := passOne_ia hbefore
    _ = wordCount (is.map Instr.mnemonic) := by rw [passTwo_mnemonics htwo]; exact Nat.zero_add _
    _ = (encodeAll c is).length := (length_encodeAll c is).symm

/-- Settles O55: the walk reads back what pass 2 appended, whose mnemonics are the lines'. -/
theorem listingReproducesSourceMnemonics : Obligations.ListingReproducesSourceMnemonics := by
  intro c lines img hc h
  obtain ⟨st, -, is, htwo, rfl⟩ := assembleLines_eq_ok_iff.1 h
  exact ⟨is, listingUpTo_encodeAll hc le_rfl, passTwo_mnemonics htwo⟩

end Sys2Proof.Machine

/-! ## The stack instructions (spec/40_stack.md R130 to R133) -/

namespace Sys2Proof.Machine

open Sys2Proof.Safety

/-- R87: a step at the code of a mnemonic is its instruction; the operand, which PUSH alone uses, is the next cell. -/
theorem step_of_atOpcode {m : Mnemonic} {s : State} (h : atOpcode m s) :
    step s = exec (instrOf m (s.cell (cellIndex (add32 s.pc 1)))) s := by
  obtain ⟨hrun, hcode⟩ := h
  exact step_of_opcode hrun hcode

/-- Settles O1: PUSH completes as a push of its operand, two cells long. -/
theorem pushStoresOperandInNextFreeSlot : Obligations.PushStoresOperandInNextFreeSlot :=
  ⟨fun v s => ⟨_, exec_eq_next (.push v) s, pushedTo_executed_push v s⟩, fun _ h => step_of_atOpcode h⟩

/-- Settles O2: DUP completes as a push of the top, one cell long. -/
theorem dupCopiesTopToNextFreeSlot : Obligations.DupCopiesTopToNextFreeSlot :=
  ⟨fun s => ⟨_, exec_eq_next .dup s, pushedTo_executed_dup s⟩, fun _ h => step_of_atOpcode h⟩

/-- Settles O3: what DROP leaves is the state after a pop, in which no cell is written. -/
theorem dropOnlyLowersSp : Obligations.DropOnlyLowersSp :=
  ⟨fun s => ⟨_, exec_eq_next .drop s, rfl, rfl, rfl, rfl, popped_cell⟩, fun _ h => step_of_atOpcode h⟩

/-- Settles O17: one push or one pop moves `sp` by 1, two pops by 2; READ pushes back the one entry it pops, ADD one of the
two, and modulo 2^32 a push undoes a pop whatever `sp` was. -/
theorem stackPointerMovesByTable : Obligations.StackPointerMovesByTable := by
  refine fun i s => ⟨_, exec_eq_next i s, ?_⟩
  cases i with
  | push | dup => rfl
  | drop | jmp | je | jg | jl | out => rfl
  | write | cmp => exact sub32_one_one s.sp
  | read => exact BitVec.sub_add_cancel s.sp 1
  | add => exact BitVec.sub_add_cancel (s.sp - 1) 1
  | inc | dec | hlt => rfl

end Sys2Proof.Machine

/-! ## READ and WRITE (spec/41_memory_access.md R140, R141) -/

namespace Sys2Proof.Machine

/-- R56: the cells after an instruction that writes: the tabled one holds the Word written, every other one is as it was. -/
theorem executed_cells_of_dataWrite {i : Instr} {s : State} {a : Nat} {v : Word} (ha : s.dataWrite i = some a)
    (hv : s.writtenWord i = some v) :
    (executed i s).cell a = v ∧ ∀ b, b ≠ a → (executed i s).cell b = s.cell b := by
  refine ⟨Option.some.inj ((executed_cell_of_dataWrite ha).trans hv), fun b hb => executed_cell_of_ne_dataWrite ?_⟩
  rw [ha]
  exact fun hab => hb (Option.some.inj hab).symm

/-- Settles O4: READ pushes back at the cell it popped from, modulo 2^32 whatever `sp` was. -/
theorem readReplacesAddressByItsCell : Obligations.ReadReplacesAddressByItsCell :=
  ⟨fun s => ⟨_, exec_eq_next .read s, rfl, BitVec.sub_add_cancel s.sp 1, rfl, rfl, executed_cells_of_dataWrite rfl rfl⟩,
    fun _ h => step_of_atOpcode h⟩

/-- Settles O5: WRITE stores after both pops, at the cell the top named before them. -/
theorem writeStoresSecondAtCellOfTop : Obligations.WriteStoresSecondAtCellOfTop :=
  ⟨fun s => ⟨_, exec_eq_next .write s, rfl, sub32_one_one s.sp, rfl, rfl, executed_cells_of_dataWrite rfl rfl⟩,
    fun _ h => step_of_atOpcode h⟩

end Sys2Proof.Machine

/-! ## The jumps (spec/42_control_transfer.md R150 to R154) -/

namespace Sys2Proof.Machine

/-- R151: JE's condition fails if either comparison bit of `flag` is set. -/
theorem condEqual_eq_false_iff (s : State) :
    s.condEqual = false ↔ s.flag.getLsbD 1 = true ∨ s.flag.getLsbD 2 = true := by
  rw [← Bool.not_eq_true, condEqual_iff, not_and_or, Bool.not_eq_false, Bool.not_eq_false]

/-- R151 to R153: an instruction that pops a target and goes there if `taken` completes from every state; `P` and `Q`
are conditions under which it is taken and is not. -/
theorem exec_of_conditional_jump {i : Instr} {s : State} {taken : Bool} {P Q : Prop}
    (hjump : executed i s = (popped s).setPc (if taken then s.top else s.pc + 1))
    (htaken : P → taken = true) (hnot : Q → taken = false) :
    ∃ t, exec i s = .next t ∧ (P → t.pc = s.top) ∧ (Q → t.pc = add32 s.pc 1) ∧
      t.sp = sub32 s.sp 1 ∧ t.flag = s.flag ∧ t.out = s.out ∧ ∀ a, t.cell a = s.cell a := by
  refine ⟨_, (exec_eq_next i s).trans (congrArg _ hjump), fun hP => ?_, fun hQ => ?_, rfl, rfl, rfl, popped_cell⟩
  · rw [htaken hP]; rfl
  · rw [hnot hQ]; rfl

/-- Settles O6: JMP leaves the state after a pop, with `pc` at the popped Word. -/
theorem jmpGoesToPoppedTarget : Obligations.JmpGoesToPoppedTarget :=
  ⟨fun s => ⟨_, exec_eq_next .jmp s, rfl, rfl, rfl, rfl, popped_cell⟩, fun _ h => step_of_atOpcode h⟩

/-- Settles O7: JE is the conditional jump on both comparison bits being clear. -/
theorem jeJumpsIfBothComparisonBitsClear : Obligations.JeJumpsIfBothComparisonBitsClear :=
  ⟨fun s => exec_of_conditional_jump rfl (condEqual_iff s).2 (condEqual_eq_false_iff s).2, fun _ h => step_of_atOpcode h⟩

/-- Settles O8: JG is the conditional jump on flag bit 1. -/
theorem jgJumpsIfFlagBitOne : Obligations.JgJumpsIfFlagBitOne :=
  ⟨fun _ => exec_of_conditional_jump rfl id id, fun _ h => step_of_atOpcode h⟩

/-- Settles O9: JL is the conditional jump on flag bit 2. -/
theorem jlJumpsIfFlagBitTwo : Obligations.JlJumpsIfFlagBitTwo :=
  ⟨fun _ => exec_of_conditional_jump rfl id id, fun _ h => step_of_atOpcode h⟩

/-! ### A conditional jump after CMP (R154) -/

/-- R25: the free slot is the cell after the top's. -/
theorem add32_topAddr_one (s : State) : add32 s.topAddr 1 = s.freeAddr := BitVec.sub_add_cancel s.freeAddr 1

theorem executed_push_topAddr (v : Word) (s : State) : (executed (.push v) s).topAddr = s.freeAddr := by
  show (72 : BitVec 32) + (s.sp + 1) - 1 = 72 + s.sp
  bv_omega

theorem executed_push_secondAddr (v : Word) (s : State) : (executed (.push v) s).secondAddr = s.topAddr := by
  show (72 : BitVec 32) + (s.sp + 1) - 2 = 72 + s.sp - 1
  bv_omega

/-- R130: PUSH's operand is the new top. -/
theorem executed_push_top (v : Word) (s : State) : (executed (.push v) s).top = v := by
  obtain ⟨-, -, -, -, hcell, -⟩ := pushedTo_executed_push v s
  rw [State.top, executed_push_topAddr, hcell]

/-- R130: PUSH leaves the old top, in a cell of its own, as the second entry. -/
theorem executed_push_second (v : Word) (s : State) : (executed (.push v) s).second = s.top := by
  obtain ⟨-, -, -, -, -, hframe⟩ := pushedTo_executed_push v s
  have hne : cellIndex s.topAddr ≠ cellIndex s.freeAddr := add32_topAddr_one s ▸ (cellIndex_succ_ne s.topAddr).symm
  rw [State.second, executed_push_secondAddr, hframe _ hne]

/-- R160: CMP after two pushes compares the two operands, the later one as the top. -/
theorem executed_cmp_flag_of_pushes (x y : Word) (s : State) :
    (executed .cmp (executed (.push y) (executed (.push x) s))).flag = compareFlag .topSetsBit1 y x := by
  show compareFlag .topSetsBit1 (executed (.push y) (executed (.push x) s)).top
    (executed (.push y) (executed (.push x) s)).second = _
  rw [executed_push_top, executed_push_second, executed_push_top]

/-- The two pops of CMP undo the two pushes, modulo 2^32 whatever `sp` was. -/
theorem executed_cmp_sp_of_pushes (x y : Word) (s : State) :
    (executed .cmp (executed (.push y) (executed (.push x) s))).sp = s.sp := by
  show s.sp + 1 + 1 - 1 - 1 = s.sp
  rw [BitVec.add_sub_cancel, BitVec.add_sub_cancel]

section
variable {u : State} {b a : Word}

/-- R154: after CMP of `b` on top of `a`, JG's condition is that the top is greater. -/
theorem condGreater_iff_of_compareFlag (h : u.flag = compareFlag .topSetsBit1 b a) :
    u.condGreater = true ↔ a.toNat < b.toNat := by
  rw [State.condGreater, State.topGreater, h, compareFlag]
  split
  · simp [flagBit1, *]
  · split <;> simp [flagBit2, flagEqual, *]

/-- R154: after CMP of `b` on top of `a`, JL's condition is that the second is greater. -/
theorem condLess_iff_of_compareFlag (h : u.flag = compareFlag .topSetsBit1 b a) :
    u.condLess = true ↔ b.toNat < a.toNat := by
  rw [State.condLess, State.secondGreater, h, compareFlag]
  split
  · rename_i hlt; simp [flagBit1, hlt.le]
  · split <;> simp [flagBit2, flagEqual, *]

/-- R154: after CMP of `b` on top of `a`, JE's condition is that neither is greater, that is that the two are equal. -/
theorem condEqual_iff_of_compareFlag (h : u.flag = compareFlag .topSetsBit1 b a) : u.condEqual = true ↔ a = b := by
  have hneither : u.condEqual = true ↔ ¬ u.condGreater = true ∧ ¬ u.condLess = true := by
    rw [Bool.not_eq_true, Bool.not_eq_true]; exact condEqual_iff u
  rw [hneither, condGreater_iff_of_compareFlag h, condLess_iff_of_compareFlag h, ← BitVec.toNat_inj]
  omega

end

/-- Settles O23: CMP compares the two operands, and the conditions read that comparison off the flag it left. -/
theorem conditionalJumpsFollowLastCmp : Obligations.ConditionalJumpsFollowLastCmp := by
  refine fun x y s => ⟨_, _, _, exec_eq_next _ s, exec_eq_next _ _, exec_eq_next _ _, executed_cmp_sp_of_pushes x y s,
    fun u hu => ⟨_, _, _, exec_eq_next .je u, exec_eq_next .jg u, exec_eq_next .jl u, ?_⟩⟩
  have hflag : u.flag = compareFlag .topSetsBit1 y x := hu.trans (executed_cmp_flag_of_pushes x y s)
  exact ⟨if_congr (condEqual_iff_of_compareFlag hflag) rfl rfl, if_congr (condGreater_iff_of_compareFlag hflag) rfl rfl,
    if_congr (condLess_iff_of_compareFlag hflag) rfl rfl⟩

end Sys2Proof.Machine

/-! ## CMP, INC, DEC and ADD (spec/43_alu.md R160 to R164) -/

namespace Sys2Proof

/-- R9, R162: a wrapped difference is the difference of the integers reduced by the mathematical modulus. -/
theorem sub32_toNat_int (a b : Word) : ((sub32 a b).toNat : Int) = (a.toNat - b.toNat : Int) % 2 ^ 32 := by
  have ha := toNat_lt_two_pow a
  have hb := toNat_lt_two_pow b
  rw [sub32_toNat]
  omega

end Sys2Proof

namespace Sys2Proof.Machine

/-- Settles O12: INC writes the wrapped sum of the top and 1 over the top. -/
theorem incAddsOneToTopInPlace : Obligations.IncAddsOneToTopInPlace := by
  refine ⟨fun s => ⟨_, exec_eq_next .inc s, rfl, rfl, rfl, rfl, ?_⟩, fun _ h => step_of_atOpcode h⟩
  exact (executed_cells_of_dataWrite rfl rfl).imp_left fun hcell => by rw [hcell]; exact add32_toNat s.top 1

/-- Settles O13: DEC writes the wrapped difference of the top and 1 over the top. -/
theorem decSubtractsOneFromTopInPlace : Obligations.DecSubtractsOneFromTopInPlace := by
  refine ⟨fun s => ⟨_, exec_eq_next .dec s, rfl, rfl, rfl, rfl, ?_⟩, fun _ h => step_of_atOpcode h⟩
  exact (executed_cells_of_dataWrite rfl rfl).imp_left fun hcell => by rw [hcell]; exact sub32_toNat_int s.top 1

/-- Settles O14: of ADD's two pops the push undoes one, modulo 2^32 whatever `sp` was, and the sum goes where the second
entry stood. -/
theorem addReplacesTopTwoBySum : Obligations.AddReplacesTopTwoBySum := by
  refine ⟨fun s => ⟨_, exec_eq_next .add s, rfl, BitVec.sub_add_cancel (s.sp - 1) 1, rfl, rfl, ?_⟩,
    fun _ h => step_of_atOpcode h⟩
  exact (executed_cells_of_dataWrite rfl rfl).imp_left fun hcell => by rw [hcell]; exact add32_toNat s.second s.top

/-! ### The flag CMP leaves, by the unsigned order of the two entries -/

section
variable {b a : Word}

/-- R160: at the default pairing bit 1 says that the top is greater. -/
theorem compareFlag_eq_flagBit1_iff : compareFlag .topSetsBit1 b a = flagBit1 ↔ a.toNat < b.toNat := by
  unfold compareFlag
  split
  · simp [*]
  · split <;> simp [flagBit1, flagBit2, flagEqual, *]

/-- R160: at the default pairing bit 2 says that the second is greater. -/
theorem compareFlag_eq_flagBit2_iff : compareFlag .topSetsBit1 b a = flagBit2 ↔ b.toNat < a.toNat := by
  unfold compareFlag
  split
  · rename_i hlt; simp [flagBit1, flagBit2, hlt.le]
  · split <;> simp [flagBit2, flagEqual, *]

/-- R160: at the default pairing neither bit says that the two are equal. -/
theorem compareFlag_eq_flagEqual_iff : compareFlag .topSetsBit1 b a = flagEqual ↔ a.toNat = b.toNat := by
  unfold compareFlag
  split
  · rename_i hlt; simp [flagBit1, flagEqual, hlt.ne]
  · split
    · rename_i hlt; simp [flagBit2, flagEqual, hlt.ne']
    · have heq : a.toNat = b.toNat := by omega
      simp [heq]

/-- R160 (c), D11: the other pairing is the default one with the two entries exchanged. -/
theorem compareFlag_secondSetsBit1 (b a : Word) : compareFlag .secondSetsBit1 b a = compareFlag .topSetsBit1 a b := by
  unfold compareFlag
  rcases Nat.lt_trichotomy a.toNat b.toNat with hlt | heq | hgt
  · rw [if_pos hlt, if_neg hlt.asymm, if_pos hlt]
  · simp [heq]
  · rw [if_neg hgt.asymm, if_pos hgt, if_pos hgt]

end

/-- Settles O10: CMP leaves the state after two pops, with the comparison of the two entries in `flag`. -/
theorem cmpRecordsUnsignedOrderInFlag : Obligations.CmpRecordsUnsignedOrderInFlag :=
  ⟨fun s => ⟨_, exec_eq_next .cmp s, rfl, sub32_one_one s.sp, rfl, fun _ => rfl, compareFlag_eq_flagBit1_iff.2,
    compareFlag_eq_flagBit2_iff.2, compareFlag_eq_flagEqual_iff.2⟩, fun _ h => step_of_atOpcode h⟩

/-- Settles O11: the two pairings differ in `flag` alone, and there as if the two entries were exchanged. -/
theorem secondPairingExchangesCmpResults : Obligations.SecondPairingExchangesCmpResults := by
  intro c s hwrap hpairing
  refine ⟨_, _, exec_eq_next .cmp s, execAt_wrap hwrap .cmp s, rfl, rfl, rfl, rfl, ?_⟩
  have hother : s.flagAfter c.cmpPairing .cmp = compareFlag .topSetsBit1 s.second s.top := by
    rw [hpairing]; exact compareFlag_secondSetsBit1 s.top s.second
  rw [State.setFlag_flag, hother]
  exact ⟨fun h => compareFlag_eq_flagBit2_iff.2 (compareFlag_eq_flagBit1_iff.1 h),
    fun h => compareFlag_eq_flagBit1_iff.2 (compareFlag_eq_flagBit2_iff.1 h),
    fun h => compareFlag_eq_flagEqual_iff.2 (compareFlag_eq_flagEqual_iff.1 h).symm⟩

end Sys2Proof.Machine

/-! ## OUT and HLT (spec/44_system.md R175, R176) -/

namespace Sys2Proof.Machine

/-- R27, R176: HLT leaves the running bit 0. -/
@[simp] theorem executed_hlt_isRunning (s : State) : (executed .hlt s).isRunning = false := by
  simp [executed, State.isRunning, flagHalted]

/-- R188, R200: wherever a run of a halted machine has come to, it is the same state and the next step reports `Halted`. -/
theorem hostStep_hostRun_of_halted {s : State} (h : s.isRunning = false) (n : Nat) :
    hostStep (hostRun n s) = (s, .halted) := by
  rw [hostRun_of_halted h, hostStep_of_halted h]

/-- Settles O15: OUT leaves the state after a pop, with the popped Word at the end of the log. -/
theorem outAppendsTopToLog : Obligations.OutAppendsTopToLog :=
  ⟨fun s => ⟨_, exec_eq_next .out s, rfl, rfl, rfl, rfl, popped_cell⟩, fun _ h => step_of_atOpcode h⟩

/-- Settles O16: HLT writes `flag` alone, and its 0 there halts the machine, which a halted machine never leaves by steps. -/
theorem hltClearsFlagAndStaysThere : Obligations.HltClearsFlagAndStaysThere :=
  ⟨fun s => ⟨_, exec_eq_next .hlt s, rfl, rfl, rfl, rfl, fun _ => rfl,
    hostStep_hostRun_of_halted (executed_hlt_isRunning s)⟩, fun _ h => step_of_atOpcode h⟩

end Sys2Proof.Machine

/-! ## The ends of a step and of a run (spec/60_exceptions.md) -/

namespace Sys2Proof.Machine

open Sys2Proof.Safety

/-! ### What a step can report -/

theorem answer_ne_fault (r : Except Refusal State) (f : Fault) : answer r ≠ .fault f := by
  intro h
  cases r with
  | ok s => cases h
  | error e => cases h

/-- R190: each meaning ends in `answer`, which completes or refuses, so after decode nothing is raised. -/
theorem execAt_ne_fault (c : Config) (i : Instr) (s : State) (f : Fault) : execAt c i s ≠ .fault f := by
  cases i with
  | drop | hlt => exact answer_ne_fault (.ok _) f
  | push | read | write | dup | jmp | out | cmp | inc | dec | je | jg | add | jl => exact answer_ne_fault _ f

/-- R186: the one fault a fetch raises. -/
theorem fetch_fault {c : Config} {s : State} {f : Fault} (h : fetch c s = .fault f) : ∃ w, f = .invalidOpcode s.pc w := by
  unfold fetch at h
  split at h
  · cases h
  · rename_i w operands _
    split at h
    · cases h
    · exact ⟨w, (Host.Outcome.fault.inj h).symm⟩

/-- R188, R190: the gate reports `Halted`, and nothing behind it does: a fetch raises `InvalidOpcode` only, and an instruction
raises nothing. -/
theorem stepAt_eq_halted_iff (c : Config) (s : State) : stepAt c s = .fault .halted ↔ s.isRunning = false := by
  refine ⟨fun h => Bool.eq_false_iff.2 fun hrun => ?_, cycle_halted c (execAt c)⟩
  rw [stepAt, cycle_of_running hrun] at h
  cases hfetch : fetch c s with
  | next i => rw [hfetch] at h; exact execAt_ne_fault c i s .halted h
  | fault f =>
    rw [hfetch] at h
    obtain ⟨w, rfl⟩ := fetch_fault hfetch
    cases h
  | refused r => rw [hfetch] at h; cases h

/-- Settles O30: the gate is the same in every configuration, the default one included. -/
theorem haltedExactlyIfRunningBitClear : Obligations.HaltedExactlyIfRunningBitClear := by
  refine ⟨fun s => ?_, fun _ h => hostStep_of_halted h, stepAt_eq_halted_iff⟩
  rw [step_eq_stepAt]
  exact stepAt_eq_halted_iff params s

/-- R85: a Word decodes to no mnemonic exactly if its low bits are no mnemonic's code. -/
theorem decodeOpcode_eq_none_iff {c : Config} {w : Word} : decodeOpcode c w = none ↔ ∀ m, c.opc m ≠ opcodeOf w := by
  simp [decodeOpcode, Mnemonic.mem_all]

/-- R186: a step of a running machine whose Word at `pc` has no mnemonic's code. -/
theorem step_of_no_opcode {s : State} (hrun : s.isRunning = true)
    (h : decodeOpcode params (s.cell (cellIndex s.pc)) = none) :
    step s = .fault (.invalidOpcode s.pc (s.cell (cellIndex s.pc))) := by
  rw [step, cycle_of_running hrun, fetch_of_no_opcode (c := params) rfl h]; rfl

/-- Settles O31: by the running bit, and on a running machine by whether the Word at `pc` has a mnemonic's code. -/
theorem stepEndsInOneOfThreeWays : Obligations.StepEndsInOneOfThreeWays := by
  refine ⟨fun s => ?_, execAt_ne_fault⟩
  cases hrun : s.isRunning with
  | false => exact .inr (.inr ⟨rfl, cycle_halted params exec hrun, hostStep_of_halted hrun⟩)
  | true =>
    cases hdec : decodeOpcode params (s.cell (cellIndex s.pc)) with
    | none =>
      exact .inr (.inl ⟨rfl, _, rfl, decodeOpcode_eq_none_iff.1 hdec, step_of_no_opcode hrun hdec,
        hostStep_of_no_opcode hrun hdec⟩)
    | some m =>
      have hat : atOpcode m s := ⟨hrun, (code_of_decodeOpcode hdec).symm⟩
      have hexec := exec_eq_next (instrOf m (s.cell (cellIndex (add32 s.pc 1)))) s
      exact .inl ⟨rfl, _, _, fetch_of_opcode (c := params) rfl hdec, hexec, (step_of_atOpcode hat).trans hexec,
        hostStep_of_atOpcode hat⟩

/-! ### Runs that stand still -/

/-- R187, R200: a run from a state its step leaves as it is stands still. -/
theorem hostRun_of_hostStep_eq {s : State} (h : (hostStep s).1 = s) (n : Nat) : hostRun n s = s :=
  hostRun_keeps (P := fun t => t = s) (fun t ht => by rw [ht, h]) rfl n

theorem hostStep_of_invalidOpcode {s : State} {pc w : Word} (h : step s = .fault (.invalidOpcode pc w)) :
    hostStep s = (s, .invalidOpcode pc w) := by
  rw [hostStep, h]; rfl

/-- R187: wherever a run that starts with `InvalidOpcode` has come to, it is the state it started from. -/
theorem hostRun_of_invalidOpcode {s : State} {pc w : Word} (h : step s = .fault (.invalidOpcode pc w)) (n : Nat) :
    hostRun n s = s :=
  hostRun_of_hostStep_eq (by rw [hostStep_of_invalidOpcode h]) n

/-- R188: a halted machine does not fetch, so it raises no `InvalidOpcode`. -/
theorem isRunning_of_invalidOpcode {s : State} {pc w : Word} (h : step s = .fault (.invalidOpcode pc w)) :
    s.isRunning = true := by
  by_contra hhalted
  rw [step, cycle_halted params exec (Bool.eq_false_of_not_eq_true hhalted)] at h
  cases h

/-- Settles O32: the failing step leaves the state, from which the same step fails again. -/
theorem invalidOpcodeRepeatsForever : Obligations.InvalidOpcodeRepeatsForever := by
  refine fun s pc w h => ⟨isRunning_of_invalidOpcode h, fun n => ?_⟩
  rw [hostRun_of_invalidOpcode h]
  exact ⟨rfl, hostStep_of_invalidOpcode h⟩

/-! ### The halted state -/

/-- R28, R160: CMP sets the running bit, whatever it compares. -/
theorem compareFlag_running (p : CmpPairing) (b a : Word) : (compareFlag p b a).getLsbD 0 = true := by
  rcases compareFlag_cases p b a with h | h | h <;> rw [h] <;> rfl

/-- R28, R177: no instruction but HLT clears the running bit. -/
theorem executed_isRunning_of_ne_hlt {i : Instr} {s : State} (hhlt : i ≠ .hlt) (hrun : s.isRunning = true) :
    (executed i s).isRunning = true := by
  by_cases hcmp : i = .cmp
  · subst hcmp; exact compareFlag_running .topSetsBit1 s.top s.second
  · rw [State.isRunning, executed_flag_of_ne hcmp hhlt]; exact hrun

/-- R201: a step that goes on to a halted machine fetched HLT. -/
theorem fetch_of_step_halts {s t : State} (h : step s = .next t) (ht : t.isRunning = false) :
    fetch params s = .next .hlt := by
  obtain ⟨hrun, i, hfetch, hi⟩ := cycle_next h
  obtain rfl : executed i s = t := Host.Outcome.next.inj ((exec_eq_next i s).symm.trans hi)
  by_cases hhlt : i = .hlt
  · rw [hfetch, hhlt]
  · exact absurd (executed_isRunning_of_ne_hlt hhlt hrun) (by simp [ht])

/-- R38, R201: the host's operations but load leave a halted machine as it is. -/
theorem transact_of_halted {s : State} {op : HostOp} (h : s.isRunning = false) (hop : ∀ img, op ≠ .load img) :
    (transact (some s) op).1 = some s := by
  cases op with
  | load img => exact absurd rfl (hop img)
  | step => exact congrArg (fun r => some r.1) (hostStep_of_halted h)
  | isRunning | snapshot => rfl

/-- R36: a load sets the running bit. -/
theorem loadedState_isRunning (img : LoadImage) : (loadedState img).isRunning = true :=
  show flagReset.getLsbD 0 = true by decide

/-- Settles O33: HLT alone clears the running bit, no operation but a load moves a halted machine, and a load sets the bit. -/
theorem haltedMachineStaysHalted : Obligations.HaltedMachineStaysHalted :=
  ⟨fun s => ⟨_, exec_eq_next .hlt s, executed_hlt_isRunning s⟩,
    fun _ _ => fetch_of_step_halts,
    fun _ n h => ⟨hostRun_of_halted h n, hostStep_hostRun_of_halted h n⟩,
    fun _ _ => transact_of_halted,
    fun s _ hwf => ⟨_, transact_load_of_wf hwf (some s), loadedState_isRunning _⟩⟩

/-! ### A run that ends normally -/

/-- R202: a run of `n + k` steps is a run of `n` steps and then one of `k`. -/
theorem hostRun_add (n k : Nat) (s : State) : hostRun (n + k) s = hostRun k (hostRun n s) := by
  induction k with
  | zero => rfl
  | succ k ih => rw [hostRun_succ, ← ih, ← hostRun_succ]; rfl

/-- R87: the Word a fetch answered an instruction from holds the code of its mnemonic. -/
theorem opcode_of_fetch {s : State} {i : Instr} (h : fetch params s = .next i) :
    opcodeOf (s.cell (cellIndex s.pc)) = params.opc i.mnemonic := by
  cases hdec : decodeOpcode params (s.cell (cellIndex s.pc)) with
  | none => rw [fetch_of_no_opcode (c := params) rfl hdec] at h; cases h
  | some m =>
    rw [fetch_of_opcode (c := params) rfl hdec] at h
    rw [← Host.Outcome.next.inj h, Instr.mnemonic_instrOf, code_of_decodeOpcode hdec]

/-- R202: the last step of a run that ends normally is at the HLT word. -/
theorem atOpcode_hlt_of_endsAfter {n : Nat} {s : State} (h : endsAfter n s) : atOpcode .hlt (hostRun n s) := by
  obtain ⟨hrun, hfetch⟩ := h
  exact ⟨hrun, opcode_of_fetch hfetch⟩

/-- R176, R202: what the last step of a run that ends normally leaves. -/
theorem hostRun_of_endsAfter {n : Nat} {s : State} (h : endsAfter n s) :
    hostRun (n + 1) s = executed .hlt (hostRun n s) := by
  rw [hostRun_succ, hostStep_of_atOpcode (atOpcode_hlt_of_endsAfter h)]; rfl

/-- R187, R202: `InvalidOpcode` on the way would be permanent, so the run's last step would raise it instead of executing
HLT. -/
theorem safeFor_of_endsAfter {n : Nat} {s : State} (h : endsAfter n s) : safeFor (n + 1) s := by
  intro k hk pc w hfault
  have hstuck : hostRun n s = hostRun k s := by
    rw [← Nat.add_sub_cancel' (Nat.le_of_lt_succ hk), hostRun_add, hostRun_of_invalidOpcode hfault]
  have hlast := step_of_atOpcode (atOpcode_hlt_of_endsAfter h)
  rw [hstuck, hfault, exec_eq_next] at hlast
  cases hlast

/-- Settles O35: HLT as the last step writes `flag` alone, the halted machine stands still, and no earlier step failed. -/
theorem normalEndHaltsOnHltWordWithoutFault : Obligations.NormalEndHaltsOnHltWordWithoutFault := by
  intro n s h
  have hend := hostRun_of_endsAfter h
  have hstays (k : Nat) : hostRun (n + 1 + k) s = executed .hlt (hostRun n s) := by
    rw [hostRun_add, hend, hostRun_of_halted (executed_hlt_isRunning _)]
  obtain ⟨-, hcode⟩ := atOpcode_hlt_of_endsAfter h
  rw [hend]
  exact ⟨rfl, rfl, rfl, rfl, rfl, hcode, hstays, safeFor_of_endsAfter h⟩

end Sys2Proof.Machine

/-! ## The image a load builds (spec/70_reset_and_hazards.md R210 to R218) -/

namespace Sys2Proof.Machine

open Sys2Proof.Safety

/-- R210: array `r` has a Word for cell `a`. -/
def covers (a : Nat) (r : ArrayLit) : Bool :=
  decide (r.start.toNat ≤ a ∧ a < r.start.toNat + r.values.length)

theorem covers_iff {a : Nat} {r : ArrayLit} :
    covers a r = true ↔ r.start.toNat ≤ a ∧ a < r.start.toNat + r.values.length := decide_eq_true_iff

/-- R210, R211: what cell `a` holds after the arrays are placed over a memory that holds `old` there: the Word of the last
array that covers it. -/
def arraysCell (arrays : List ArrayLit) (a : Nat) (old : Word) : Word :=
  (arrays.reverse.find? (covers a)).elim old fun r => r.values.getD (a - r.start.toNat) 0

/-- R211: the arrays after the first one see the first one's Word as the old content of the cell. -/
theorem arraysCell_cons (r : ArrayLit) (arrays : List ArrayLit) (a : Nat) (old : Word) :
    arraysCell (r :: arrays) a old =
      arraysCell arrays a (if covers a r then r.values.getD (a - r.start.toNat) 0 else old) := by
  rw [arraysCell, arraysCell, List.reverse_cons, List.find?_append]
  cases arrays.reverse.find? (covers a) with
  | some last => rfl
  | none => by_cases h : covers a r = true <;> simp [h]

/-- A cell that no array covers keeps its old content. -/
theorem arraysCell_of_uncovered {arrays : List ArrayLit} {a : Nat} (h : ∀ r ∈ arrays, covers a r ≠ true) (old : Word) :
    arraysCell arrays a old = old := by
  have hnone : arrays.reverse.find? (covers a) = none :=
    List.find?_eq_none.2 fun r hr => h r (List.mem_reverse.1 hr)
  rw [arraysCell, hnone]; rfl

/-- R210, R211: the image's Word, in the order of precedence stream, arrays, cleared cell. -/
theorem imageCell_eq (img : LoadImage) (a : Nat) :
    imageCell img a = img.instructions[a]?.getD (arraysCell img.arrays a 0) := by
  unfold imageCell arraysCell covers
  split
  · rename_i hword
    rw [hword]; rfl
  · rename_i hbeyond
    rw [hbeyond]
    split <;> rename_i hfind <;> rw [hfind] <;> rfl

/-- R210, R211: arrays placed in order, each within the memory. -/
theorem Memory.read_placeArrays (m : Memory) {arrays : List ArrayLit}
    (h : ∀ r ∈ arrays, r.start.toNat + r.values.length ≤ 1024) (a : Nat) :
    (m.placeArrays arrays).read a = arraysCell arrays a (m.read a) := by
  induction arrays generalizing m with
  | nil => rfl
  | cons r rest ih =>
    obtain ⟨hr, hrest⟩ := List.forall_mem_cons.1 h
    rw [Memory.placeArrays, ih _ hrest, Memory.read_place m r.start r.values hr, arraysCell_cons]
    simp only [covers_iff]

/-- R210: a stream placed from cell 0 within the memory. -/
theorem Memory.read_place_entry (m : Memory) {ws : List Word} (h : ws.length ≤ 1024) (a : Nat) :
    (m.place entry ws).read a = ws[a]?.getD (m.read a) := by
  have hentry : entry.toNat = 0 := rfl
  rw [Memory.read_place m entry ws (by omega), hentry]
  by_cases ha : a < ws.length <;> simp [ha]

/-- R210, R211: the cells of the loaded state are the image's. -/
theorem loadedState_cell {img : LoadImage} (h : img.wf = true) (a : Nat) : (loadedState img).cell a = imageCell img a := by
  obtain ⟨hstream, harrays⟩ := img.wf_iff.1 h
  calc (loadedState img).cell a
      = img.instructions[a]?.getD ((Memory.placeArrays [] img.arrays).read a) := Memory.read_place_entry _ hstream a
    _ = img.instructions[a]?.getD (arraysCell img.arrays a 0) := by rw [Memory.read_placeArrays [] harrays a]; rfl
    _ = imageCell img a := (imageCell_eq img a).symm

/-- Settles O48: a load that fits answers the loaded state, whose cells are the image's. -/
theorem loadBuildsImageInOrder : Obligations.LoadBuildsImageInOrder :=
  fun img hwf =>
    ⟨loadedState img, load_of_wf hwf, rfl, rfl, rfl, rfl, loadedState_invariant img, loadedState_cell hwf⟩

/-- R212: an image that does not fit is refused, by its stream or by the first array that is too long. -/
theorem load_of_not_wf {img : LoadImage} (h : ¬ img.wf = true) : ∃ r, load img = .error r := by
  unfold load
  by_cases hstream : img.streamFits = true
  · rw [if_pos hstream]
    cases hfind : img.arrays.find? fun a => !a.fits with
    | some a => exact ⟨_, rfl⟩
    | none =>
      have harrays : ∀ r ∈ img.arrays, r.fits = true := by simpa using hfind
      exact absurd (by simpa [LoadImage.wf, hstream] using harrays) h
  · exact ⟨_, if_neg hstream⟩

/-- R212: what was loaded fits. -/
theorem wf_of_load_ok {img : LoadImage} {s : State} (h : load img = .ok s) : img.wf = true := by
  by_contra hwf
  obtain ⟨r, hr⟩ := load_of_not_wf hwf
  rw [hr] at h
  cases h

/-- R217, R218: the conventions, in the numbers of R6. -/
theorem conventional_iff (img : LoadImage) :
    conventional img = true ↔ img.instructions.length < 72 ∧ ∀ r ∈ img.arrays, 88 ≤ r.start.toNat := by
  simp only [conventional, Bool.and_eq_true, List.all_eq_true, decide_eq_true_eq]
  rfl

/-- R217, R218: a conventional image has no Word for the cells from the stream's bound to the first array. -/
theorem imageCell_of_conventional {img : LoadImage} (h : conventional img = true) {a : Nat} (hlo : 72 ≤ a) (hhi : a ≤ 87) :
    imageCell img a = 0 := by
  obtain ⟨hstream, harrays⟩ := (conventional_iff img).1 h
  have hbeyond : img.instructions[a]? = none := List.getElem?_eq_none (by omega)
  have huncovered : ∀ r ∈ img.arrays, covers a r ≠ true := by
    intro r hr hcov
    have hstart := harrays r hr
    have hle := (covers_iff.1 hcov).1
    omega
  rw [imageCell_eq, hbeyond, arraysCell_of_uncovered huncovered]
  rfl

/-- Settles O49: the loaded cells are the image's, and neither the stream nor an array reaches the stack region. -/
theorem conventionalImageLeavesStackRegionClear : Obligations.ConventionalImageLeavesStackRegionClear := by
  intro img s hconv hload a hlo hhi
  rw [load_ok hload, loadedState_cell (wf_of_load_ok hload), imageCell_of_conventional hconv hlo hhi]

/-- R212: a refused load leaves the machine, if any, as it was. -/
theorem transact_load_of_error {img : LoadImage} {r : Refusal} (h : load img = .error r) (m : Option State) :
    transact m (.load img) = (m, .loadRefused r) := by
  simp only [transact, h]

/-- R212: a stream of more than 1024 Words does not fit, nor does an array past address 1023. -/
theorem not_wf_of_oversized {img : LoadImage}
    (h : 1024 < img.instructions.length ∨ ∃ r ∈ img.arrays, 1024 < r.start.toNat + r.values.length) :
    ¬ img.wf = true := by
  intro hwf
  obtain ⟨hstream, harrays⟩ := img.wf_iff.1 hwf
  rcases h with hlong | ⟨r, hr, hpast⟩
  · exact absurd hlong (Nat.not_lt.2 hstream)
  · exact absurd hpast (Nat.not_lt.2 (harrays r hr))

/-- Settles O50: an oversized image does not fit, so `load` answers no state for the machine to become. -/
theorem oversizedLoadIsRefused : Obligations.OversizedLoadIsRefused := by
  intro img m hover
  obtain ⟨r, hr⟩ := load_of_not_wf (not_wf_of_oversized hover)
  exact ⟨r, transact_load_of_error hr m⟩

end Sys2Proof.Machine
